-- ==== Sys2Proof/Word.lean ====
section
/-! DEFINITION. The widths of the core's values (spec/00_scope.md R8, R9): command word, operand field, and the
four value types of the data model. All are unsigned (R11). -/

namespace Sys2Proof

/-- The command word `cmd[17:0]` (spec/30_encoding.md R60). -/
abbrev Word := BitVec 18

/-- The operand field `cmd[14:0]`, and the width of the result field (R60, spec/10_state.md R23). -/
abbrev Operand := BitVec 15

/-- A payload `pl[3:0]`: `pl[3] = d1` … `pl[0] = d4` (spec/10_state.md R26). -/
abbrev Payload := BitVec 4

/-- A codeword `cw[6:0]`: position i, for i in 1..7, is `cw[7-i]` (spec/10_state.md R27). -/
abbrev Codeword := BitVec 7

/-- A frame `fr[14:0]`: header, codeword, terminator (spec/10_state.md R28). -/
abbrev Frame := BitVec 15

/-- A syndrome `s[2:0] = {c3, c2, c1}` (spec/10_state.md R29). -/
abbrev Syndrome := BitVec 3

/-- Text as the surfaces of spec/44_wire_interface.md see it: a sequence of characters. -/
abbrev Text := List Char

end Sys2Proof
end

