-- ==== Sys2Proof/Syntax.lean ====
section
/-! DEFINITION. The seven operations (spec/30_encoding.md R63), one constructor per row of spec/opcode_table.json.
Each carries its whole 15-bit operand field `cmd[14:0]` (R60, R61); which bits of it are the value and which are
reserved is R62's, in WellFormed.lean and in Decode.lean. -/

namespace Sys2Proof

inductive Instr where
  | enc (operand : Operand)
  | bld (operand : Operand)
  | encf (operand : Operand)
  | syn (operand : Operand)
  | cor (operand : Operand)
  | dec (operand : Operand)
  | parse (operand : Operand)
deriving DecidableEq, Repr

/-- The operand field of an operation. -/
def Instr.operand : Instr → Operand
  | .enc x => x
  | .bld x => x
  | .encf x => x
  | .syn x => x
  | .cor x => x
  | .dec x => x
  | .parse x => x

end Sys2Proof
end

