-- ==== Sys2Proof/WellFormed.lean ====
section
/-! DEFINITION. A well-formed operation: its value stands in the low bits of the operand field and every reserved bit
is zero (spec/30_encoding.md R62). Written as a bound on the operand's number; the decoder tests the reserved bits
themselves (R65), and Laws/Codec.lean proves that the two agree. -/

namespace Sys2Proof

/-- Every reserved operand bit of the operation is zero (spec/30_encoding.md R62). -/
def Instr.wellFormed : Instr → Bool
  | .enc x => decide (x.toNat < 2 ^ 4)
  | .bld x => decide (x.toNat < 2 ^ 7)
  | .encf x => decide (x.toNat < 2 ^ 4)
  | .syn x => decide (x.toNat < 2 ^ 7)
  | .cor x => decide (x.toNat < 2 ^ 7)
  | .dec x => decide (x.toNat < 2 ^ 7)
  | .parse _ => true

end Sys2Proof
end

