-- ==== Sys2Proof/Decode.lean ====
section
/-! DEFINITION. The decoder and the encoder of the 18-bit command word (spec/30_encoding.md R60 to R68). Decoding is
total: a word is one operation with a legal operand, or is rejected by the name of the rule that makes it illegal. -/

namespace Sys2Proof

/-- The seven operation names of R63. -/
inductive Op where
  | enc | bld | encf | syn | cor | dec | parse
deriving DecidableEq, Repr

/-- The seven operation names, in the order of R63. -/
def Op.all : List Op := [.enc, .bld, .encf, .syn, .cor, .dec, .parse]

/-- The operation code `cmd[17:15]` (R63). -/
def Op.code : Op → BitVec 3
  | .enc => 0#3
  | .bld => 1#3
  | .encf => 2#3
  | .syn => 3#3
  | .cor => 4#3
  | .dec => 5#3
  | .parse => 6#3

/-- The operation that a code selects; 7 is reserved (R63, R64). -/
def Op.ofCode (code : BitVec 3) : Option Op :=
  match code.toNat with
  | 0 => some .enc
  | 1 => some .bld
  | 2 => some .encf
  | 3 => some .syn
  | 4 => some .cor
  | 5 => some .dec
  | 6 => some .parse
  | _ => none

/-- The width of the operation's value in the operand field (R62, R69). -/
def Op.valueWidth : Op → Nat
  | .enc => 4
  | .bld => 7
  | .encf => 4
  | .syn => 7
  | .cor => 7
  | .dec => 7
  | .parse => 15

/-- The operation with its operand field. -/
def Op.instr : Op → Operand → Instr
  | .enc => .enc
  | .bld => .bld
  | .encf => .encf
  | .syn => .syn
  | .cor => .cor
  | .dec => .dec
  | .parse => .parse

/-- The name of an operation. -/
def Instr.op : Instr → Op
  | .enc _ => .enc
  | .bld _ => .bld
  | .encf _ => .encf
  | .syn _ => .syn
  | .cor _ => .cor
  | .dec _ => .dec
  | .parse _ => .parse

/-- `op = cmd[17:15]` (R60). -/
def opField (w : Word) : BitVec 3 := w.extractLsb' 15 3

/-- `operand = cmd[14:0]` (R60). -/
def operandField (w : Word) : Operand := w.extractLsb' 0 15

/-- `operand[14:4] != 0`: a reserved bit of a payload operand is set (R65). -/
def payloadReservedSet (x : Operand) : Bool := x.extractLsb' 4 11 != 0#11

/-- `operand[14:7] != 0`: a reserved bit of a codeword operand is set (R65). -/
def codewordReservedSet (x : Operand) : Bool := x.extractLsb' 7 8 != 0#8

/-- Whether the operation's reserved operand bits are not all zero (R65). PARSE has none. -/
def Op.reservedSet : Op → Operand → Bool
  | .enc, x => payloadReservedSet x
  | .bld, x => codewordReservedSet x
  | .encf, x => payloadReservedSet x
  | .syn, x => codewordReservedSet x
  | .cor, x => codewordReservedSet x
  | .dec, x => codewordReservedSet x
  | .parse, _ => false

/-- Why a command word is illegal. -/
inductive Illegal where
  /-- `op = 7`, whatever the operand (R64). -/
  | reservedOp
  /-- A reserved operand bit of this operation is set (R65). -/
  | reservedOperandBits (op : Op)
deriving DecidableEq, Repr

/-- Decode a command word: first `op`, then the reserved operand bits (R67). -/
def decode (w : Word) : Except Illegal Instr :=
  match Op.ofCode (opField w) with
  | none => .error .reservedOp
  | some op =>
    if op.reservedSet (operandField w) then .error (.reservedOperandBits op)
    else .ok (op.instr (operandField w))

/-- The command word `op, operand` of an operation (R60). -/
def encode (i : Instr) : Word := i.op.code ++ i.operand

/-- The `mask` column of the table of R66. -/
def Op.mask : Op → Word
  | .enc => 0x3FFF0#18
  | .bld => 0x3FF80#18
  | .encf => 0x3FFF0#18
  | .syn => 0x3FF80#18
  | .cor => 0x3FF80#18
  | .dec => 0x3FF80#18
  | .parse => 0x38000#18

/-- The `match` column of the table of R66. -/
def Op.pattern : Op → Word
  | .enc => 0x00000#18
  | .bld => 0x08000#18
  | .encf => 0x10000#18
  | .syn => 0x18000#18
  | .cor => 0x20000#18
  | .dec => 0x28000#18
  | .parse => 0x30000#18

/-- What the decoder reads from an instruction whose bits are the number `w`, bit 0 the least significant of its
one word. Every command has the one length of 18 bits (R60), so a number of more bits is no command, and `nbits`
(18 in whole bytes) carries nothing more (log 11). -/
def decodeTableWord (_nbits w : Nat) : Option Instr :=
  if w < 2 ^ 18 then
    match decode (BitVec.ofNat 18 w) with
    | .ok i => some i
    | .error _ => none
  else none

end Sys2Proof
end

