-- ==== Sys2Proof/Machine/State.lean ====
section
/-! DEFINITION. The state of the machine. The core itself keeps nothing between transactions
(spec/10_state.md R20, R22): State holds its two ports (R23) and the agents at its boundary, which the spec describes:
the hosts (spec/30_encoding.md R71, spec/60_exceptions.md R211), the sender and receiver surfaces
(spec/44_wire_interface.md) and the reset line (spec/70_reset_and_hazards.md). -/

namespace Sys2Proof.Machine

/-- The status codes of spec/60_exceptions.md R200 by name; `Status.code` in Flags.lean gives the numbers. -/
inductive Status where
  | ok
  | invalidFrame
  | invalidPayload
  | illegalCmd
deriving DecidableEq, Repr

/-- One response on the response port (spec/10_state.md R23). -/
structure Response where
  status : Status
  res    : BitVec 15
  syn    : Syndrome
deriving DecidableEq, Repr

/-- The name of a host variable `$name`, without the dollar sign (spec/30_encoding.md R71). -/
abbrev VarName := Text

/-- An operand expression of a host program: a number, or a value formed from an earlier `$v.res` with the notation
and operators of spec/00_scope.md R11 and R12 (spec/30_encoding.md R71). Values are unsigned numbers. -/
inductive HostExpr where
  /-- A number literal, or a wire-order bit string already read as a number. -/
  | lit (n : Nat)
  /-- `$v.res`. -/
  | res (v : VarName)
  /-- `a ^ b`. -/
  | xor (a b : HostExpr)
  /-- `~a`, the inverse of one bit. -/
  | inv (a : HostExpr)
  /-- The concatenation of a and b, b having `width` bits. -/
  | cat (a : HostExpr) (width : Nat) (b : HostExpr)
  /-- `a + b`. -/
  | add (a b : HostExpr)
  /-- `a * b`. -/
  | mul (a b : HostExpr)
  /-- `1 << k`. -/
  | pow2 (k : HostExpr)
  /-- `v[hi:lo]`; `v[i]` is `v[i:i]`. -/
  | slice (v : HostExpr) (hi lo : Nat)
  /-- `a == b`, as the bit 1 or 0. -/
  | eq (a b : HostExpr)
  /-- `a != b`, as the bit 1 or 0. -/
  | ne (a b : HostExpr)
deriving DecidableEq, Repr

/-- One command of a host program (spec/30_encoding.md R69, R71). -/
inductive HostCmd where
  /-- `.word w`: a raw command word. -/
  | raw (w : Word)
  /-- A mnemonic with its operand. -/
  | form (op : Op) (operand : HostExpr)
deriving DecidableEq, Repr

/-- One action of a host. -/
inductive HostAction where
  /-- `$v = <command>`, or a command whose response the host binds to no variable (spec/30_encoding.md R71). -/
  | issue (bindTo : Option VarName) (cmd : HostCmd)
  /-- Test `$v.status`: go on when it equals (or, with `equal = false`, differs from) `status`; otherwise leave out the
  next `skip` actions (R71). -/
  | test (v : VarName) (equal : Bool) (status : Status) (skip : Nat)
  /-- Leave out the next `skip` actions (the end of a taken branch). -/
  | jump (skip : Nat)
  /-- One run of the sender with its arguments and the standard input it does not read
  (spec/44_wire_interface.md R181, R183). -/
  | send (args : List Text) (stdin : Text)
  /-- One run of the receiver with its standard input (spec/44_wire_interface.md R185). -/
  | receive (stdin : Text)
deriving DecidableEq, Repr

/-- Who of a host's programs waits for the response of its outstanding command. -/
inductive Client where
  | host (bindTo : Option VarName)
  | sender (args : List Text) (stdin : Text)
  | receiver (candidate unread : Text)
deriving DecidableEq, Repr

/-- A host's outstanding transaction: the command, kept so that it can be issued again
(spec/70_reset_and_hazards.md R231), who issued it, and its response, once the core has given it
(spec/60_exceptions.md R211). -/
structure Pending where
  cmd      : Word
  who      : Client
  response : Option Response
deriving DecidableEq, Repr

/-- The two surfaces of spec/44_wire_interface.md. -/
inductive Surface where
  | sender
  | receiver
deriving DecidableEq, Repr

/-- The record of one finished surface run: what it was given (the arguments, or the candidate line), the standard
input it left unread, the error status it reports (spec/60_exceptions.md R200), what it wrote to standard output, and
its exit status (spec/44_wire_interface.md R182, R184, R188, R189). -/
structure SurfaceRun where
  surface    : Surface
  input      : List Text
  unread     : Text
  status     : Status
  stdout     : Text
  exitStatus : Nat
deriving DecidableEq, Repr

/-- One host (spec/60_exceptions.md R211: any number of them issue commands concurrently): the caller of the core, with
variables and control flow of its own (spec/30_encoding.md R71), or a user who runs the surfaces
(spec/44_wire_interface.md). -/
structure HostState where
  /-- What this host has yet to do, oldest first. -/
  script    : List HostAction
  /-- The transaction this host waits on. -/
  waiting   : Option Pending
  /-- The host's variables. -/
  vars      : List (VarName × Response)
  /-- The finished surface runs of this host, newest first. -/
  runs      : List SurfaceRun
  /-- How many actions this host has taken: each may use free values of its own. -/
  freeCount : Nat
deriving DecidableEq, Repr

/-- Who moves in one step. -/
inductive Turn where
  /-- The core serves the command on its port. -/
  | core
  /-- A reset arrives (spec/70_reset_and_hazards.md R230, R231). -/
  | reset
  /-- Host number n goes on. -/
  | host (n : Nat)
deriving DecidableEq, Repr

/-- The machine. INVENTORY.md, '## State', has the rule and the reset value of each field. -/
structure State where
  /-- The command port: the word presented and not yet served. -/
  cmdPort   : Option Word
  /-- The host whose command stands on the command port; none for a word presented from outside the model. -/
  portHost  : Option Nat
  /-- The response port. -/
  respPort  : Option Response
  /-- The hosts that share the core, by number. -/
  hosts     : List HostState
  /-- For each coming step, who moves in it; once it is used up, `State.turn` in Ops.lean says who does. -/
  schedule  : List Turn
  /-- How many free values the reset line has used. -/
  freeCount : Nat
deriving DecidableEq, Repr

/-- The core has no traps (spec/60_exceptions.md R203): an error is a response, so nothing here can fault. -/
inductive Fault where
deriving DecidableEq, Repr

/-- Why the model gives an action no meaning. None of these is about a command that stands on the command port. -/
inductive Refusal where
  /-- Raised by `exec` for an operation that has no meaning yet. Safe: the run stops. -/
  | notModelled (mnemonic : String)
  /-- Raised by a host's `issue` when a literal operand does not fit the operation's width: "A literal that does not fit
  its width does not assemble" (spec/30_encoding.md R69). Safe: the run stops. -/
  | literalDoesNotAssemble (op : Op) (value : Nat)
deriving DecidableEq, Repr

/-- What one step answers. -/
abbrev Result := Host.Outcome State Fault Refusal

/-- The machine after reset: no command, no response, no host at work
(spec/70_reset_and_hazards.md R230, R232; logs 2, 3, 5). -/
def State.reset : State where
  cmdPort   := none
  portHost  := none
  respPort  := none
  hosts     := []
  schedule  := []
  freeCount := 0

/-- A host with nothing to do, no variable bound and nothing run (spec/95_test_vectors.md, section 3; log 6). -/
def HostState.fresh : HostState where
  script    := []
  waiting   := none
  vars      := []
  runs      := []
  freeCount := 0

end Sys2Proof.Machine
end

