-- ==== Sys2Proof/Machine/Flags.lean ====
section
/-! DEFINITION. The condition outputs of a response (spec/10_state.md R30): the status code (spec/60_exceptions.md R200)
and the syndrome (spec/43_syndrome_corrector.md R150). -/

namespace Sys2Proof.Machine

/-- `status[1:0]` (spec/60_exceptions.md R200). -/
def Status.code : Status → BitVec 2
  | .ok => 0#2
  | .invalidFrame => 1#2
  | .invalidPayload => 2#2
  | .illegalCmd => 3#2

/-- Check bit c1, over positions 1, 3, 5, 7 (R150). -/
def checkBit1 (cw : Codeword) : Bool := cw[6] ^^ cw[4] ^^ cw[2] ^^ cw[0]

/-- Check bit c2, over positions 2, 3, 6, 7 (R150). -/
def checkBit2 (cw : Codeword) : Bool := cw[5] ^^ cw[4] ^^ cw[1] ^^ cw[0]

/-- Check bit c3, over positions 4, 5, 6, 7 (R150). -/
def checkBit3 (cw : Codeword) : Bool := cw[3] ^^ cw[2] ^^ cw[1] ^^ cw[0]

/-- `syndrome(cw)` is the concatenation c3, c2, c1, of value `c1 + 2*c2 + 4*c3` (R150, R151). -/
def syndrome (cw : Codeword) : Syndrome :=
  BitVec.ofBool (checkBit3 cw) ++ BitVec.ofBool (checkBit2 cw) ++ BitVec.ofBool (checkBit1 cw)

end Sys2Proof.Machine
end

