-- ==== Sys2Proof/Config.lean ====
section
/-! DEFINITION. What is fixed for the core (spec/00_scope.md R8, R9) and what the spec leaves open (R10, and
spec/70_reset_and_hazards.md R231). A constant without a body is a free value: no proof can see what it is. -/

namespace Sys2Proof

/-- The header constant `1010` (spec/00_scope.md R8). -/
abbrev Config.header : BitVec 4 := 0b1010#4

/-- The terminator constant `0101` (spec/00_scope.md R8). -/
abbrev Config.terminator : BitVec 4 := 0b0101#4

/-- CORRECTION_MODE (spec/00_scope.md R9). The legacy behaviour is not admitted (spec/43_syndrome_corrector.md R156),
so it has no constructor here. DOUBLE_ERROR_DETECTION is absent (R9): no status names an uncorrectable error. -/
inductive CorrectionMode where
  | toggle
deriving DecidableEq, Repr

/-- CORRECTION_MODE = TOGGLE (spec/00_scope.md R9). -/
abbrev Config.correctionMode : CorrectionMode := .toggle

/-- `INVALID_PAYLOAD_MESSAGE`, the text the sender prints for a rejected payload: the one open parameter
(spec/00_scope.md R10, spec/44_wire_interface.md R184). A free value (log 4). -/
opaque Config.invalidPayloadMessage : Text

/-- Whether the n-th reset that arrives while a command is being served ends that transaction with no response (true)
or lets it finish (false): spec/70_reset_and_hazards.md R231 admits both. A free value (log 3). -/
opaque Config.resetCutsTransaction : Nat → Bool

/-- The value that a host program reads where the spec states none (spec/30_encoding.md R71 with spec/00_scope.md R12):
for host number `n`, that host's counter and the place in its operand expression. A free value (log 8). -/
opaque Config.freeHostValue : Nat → Nat → Nat → Nat

end Sys2Proof
end

