-- ==== Sys2Proof/Machine/Operands.lean ====
section
/-! DEFINITION. The values inside the operand field and inside a frame (spec/30_encoding.md R62, R68;
spec/10_state.md R28), and `zext_15` (spec/00_scope.md R12). -/

namespace Sys2Proof.Machine

/-- `pl = operand[3:0]` (spec/30_encoding.md R68). -/
def payloadOf (x : Operand) : Payload := x.extractLsb' 0 4

/-- `cw = operand[6:0]` (spec/30_encoding.md R68). -/
def codewordOf (x : Operand) : Codeword := x.extractLsb' 0 7

/-- `fr = operand[14:0]` (spec/30_encoding.md R68). -/
def frameOf (x : Operand) : Frame := x

/-- `zext_15(v)` (spec/00_scope.md R12). -/
def zext15 {n : Nat} (v : BitVec n) : BitVec 15 := v.setWidth 15

/-- `fr[14:11]` (spec/10_state.md R28). -/
def frameHeader (fr : Frame) : BitVec 4 := fr.extractLsb' 11 4

/-- `fr[10:4]` (spec/10_state.md R28, spec/42_frame_parser.md R131). -/
def frameCodeword (fr : Frame) : Codeword := fr.extractLsb' 4 7

/-- `fr[3:0]` (spec/10_state.md R28). -/
def frameTerminator (fr : Frame) : BitVec 4 := fr.extractLsb' 0 4

/-- The number `b[0]b[1]…` of a bit string, its first character most significant (spec/20_memory.md R44). -/
def bitsValue (t : Text) : Nat := t.foldl (fun a c => 2 * a + (if c == '1' then 1 else 0)) 0

/-- `bits(t)` as an n-bit vector (spec/44_wire_interface.md R180). -/
def bits (n : Nat) (t : Text) : BitVec n := BitVec.ofNat n (bitsValue t)

/-- The bit string of a vector, its most significant bit first: `chars15` and `chars4` of
spec/44_wire_interface.md R182 and R188. -/
def chars {n : Nat} (v : BitVec n) : Text :=
  (List.range n).map fun k => if v.getLsbD (n - 1 - k) then '1' else '0'

/-- A character of the wire alphabet (spec/44_wire_interface.md R180). -/
def isBitChar (c : Char) : Bool := c == '0' || c == '1'

end Sys2Proof.Machine
end

