-- ==== Sys2Proof/Machine/Ops.lean ====
section
/-! DEFINITION. The shared operations: one named update each of State and of HostState, `respond` and `raise`
(spec/00_scope.md R13), handing a response to its host (spec/60_exceptions.md R211), and who moves next. -/

namespace Sys2Proof.Machine

/-! ### One host -/

/-- The host waits on a transaction. -/
def HostState.await (h : HostState) (p : Pending) : HostState := { h with waiting := some p }

/-- The host has used its response and waits no longer. -/
def HostState.release (h : HostState) : HostState := { h with waiting := none }

/-- The core has answered the transaction the host waits on. -/
def HostState.receive (h : HostState) (r : Response) : HostState :=
  { h with waiting := h.waiting.map fun p => { p with response := some r } }

/-- Bind a host variable to a response, in place of any earlier binding (spec/30_encoding.md R71). -/
def HostState.bind (h : HostState) (v : VarName) (r : Response) : HostState :=
  { h with vars := (v, r) :: h.vars.filter fun b => b.1 != v }

/-- The response a host variable is bound to. -/
def HostState.lookup (h : HostState) (v : VarName) : Option Response := h.vars.lookup v

/-- A surface run has finished. -/
def HostState.record (h : HostState) (r : SurfaceRun) : HostState := { h with runs := r :: h.runs }

/-- The host has taken (or leaves out) its next n actions. -/
def HostState.dropActions (h : HostState) (n : Nat) : HostState := { h with script := h.script.drop n }

/-- The host has taken an action, with the free values that belong to it. -/
def HostState.countFree (h : HostState) : HostState := { h with freeCount := h.freeCount + 1 }

/-- The command that the host has issued and seen no response to. -/
def HostState.unanswered (h : HostState) : Option Word :=
  match h.waiting with
  | some p => if p.response.isNone then some p.cmd else none
  | none => none

/-- Whether the host has anything to do. -/
def HostState.active (h : HostState) : Bool := h.waiting.isSome || !h.script.isEmpty

/-! ### The machine -/

/-- Place a response on the response port. -/
def State.withResponse (s : State) (r : Response) : State := { s with respPort := some r }

/-- The response port carries no response. -/
def State.clearResponse (s : State) : State := { s with respPort := none }

/-- The core takes the command word from the command port. -/
def State.takeCommand (s : State) : State := { s with cmdPort := none, portHost := none }

/-- Host number n presents a command: the response port is empty until the core answers. -/
def State.present (s : State) (n : Nat) (w : Word) : State :=
  { s with cmdPort := some w, portHost := some n, respPort := none }

/-- Host number n has moved. -/
def State.setHost (s : State) (n : Nat) (h : HostState) : State := { s with hosts := s.hosts.set n h }

/-- Host number n has the response to its command. -/
def State.give (s : State) (n : Nat) (r : Response) : State :=
  { s with hosts := s.hosts.modify n fun h => h.receive r }

/-- The step's turn has been taken. -/
def State.tick (s : State) : State := { s with schedule := s.schedule.tail }

/-- The reset line has used a free value. -/
def State.countFree (s : State) : State := { s with freeCount := s.freeCount + 1 }

/-- The response on the response port goes to the host whose command it answers, and to no other
(spec/60_exceptions.md R211, spec/20_memory.md R48). A word from outside the model has no host. -/
def State.deliver (s : State) (owner : Option Nat) : State :=
  match owner, s.respPort with
  | some n, some r => s.give n r
  | some _, none => s
  | none, _ => s

/-- `State.deliver` for what a step answers. -/
def deliverResult (owner : Option Nat) : Result → Result
  | .next s => .next (s.deliver owner)
  | .fault e => .fault e
  | .refused e => .refused e

/-- Who moves in this step: whom the schedule names; once it is used up, the core if a command stands on its port, and
otherwise the first host that has anything to do (log 5). -/
def State.turn (s : State) : Turn :=
  match s.schedule with
  | t :: _ => t
  | [] => if s.cmdPort.isSome then .core else .host (s.hosts.findIdx HostState.active)

/-- `respond(status, res, syn)`: place one response and end the operation (spec/00_scope.md R13). -/
def respond (status : Status) (res : BitVec 15) (syn : Syndrome) (s : State) : Result :=
  .next (s.withResponse { status := status, res := res, syn := syn })

/-- `raise E` is `respond(E, 0, 0)` (spec/00_scope.md R13, spec/10_state.md R25). This is all that an error does: the
core saves nothing, enters no handler, and there is nothing to return from (spec/60_exceptions.md R202, R203, R204). -/
def raise (e : Status) (s : State) : Result := respond e 0#15 0#3 s

end Sys2Proof.Machine
end

