-- ==== Sys2Proof/Machine/Encoder.lean ====
section
/-! DEFINITION. Encoder and FrameBuilder: ENC, BLD, ENCF (spec/41_encoder_framebuilder.md). The first line of each
meaning is the reserved-bit test of its pseudocode. -/

namespace Sys2Proof.Machine

/-- `hamming_encode(pl)` (R100). -/
def hammingEncode (pl : Payload) : Codeword :=
  let d1 := pl[3]
  let d2 := pl[2]
  let d3 := pl[1]
  let d4 := pl[0]
  let p1 := d1 ^^ d2 ^^ d4
  let p2 := d1 ^^ d3 ^^ d4
  let p3 := d2 ^^ d3 ^^ d4
  BitVec.ofBool p1 ++ BitVec.ofBool p2 ++ BitVec.ofBool d1 ++ BitVec.ofBool p3
    ++ BitVec.ofBool d2 ++ BitVec.ofBool d3 ++ BitVec.ofBool d4

/-- `build_frame(cw)`: header, codeword, terminator (R101). -/
def buildFrame (cw : Codeword) : Frame := Config.header ++ cw ++ Config.terminator

/-- ENC (R110). -/
def execEnc (operand : Operand) (s : State) : Result :=
  if payloadReservedSet operand then raise .illegalCmd s
  else respond .ok (zext15 (hammingEncode (payloadOf operand))) 0#3 s

/-- BLD (R111). -/
def execBld (operand : Operand) (s : State) : Result :=
  if codewordReservedSet operand then raise .illegalCmd s
  else respond .ok (buildFrame (codewordOf operand)) 0#3 s

/-- ENCF (R112). -/
def execEncf (operand : Operand) (s : State) : Result :=
  if payloadReservedSet operand then raise .illegalCmd s
  else respond .ok (buildFrame (hammingEncode (payloadOf operand))) 0#3 s

end Sys2Proof.Machine
end

