-- ==== Sys2Proof/Machine/Corrector.lean ====
section
/-! DEFINITION. SyndromeCorrector: SYN, COR, DEC (spec/43_syndrome_corrector.md). The first line of each meaning is the
reserved-bit test of its pseudocode. -/

namespace Sys2Proof.Machine

/-- The codeword with the bit at a position inverted; position i is `cw[7-i]` (spec/10_state.md R27). -/
def flipPosition (cw : Codeword) (i : Nat) : Codeword := cw ^^^ (1#7 <<< (7 - i))

/-- `correct(cw, s)` (R152): the bit that a nonzero syndrome names is inverted. The legacy correction step has no
meaning and is not admitted (R156). -/
def correct (cw : Codeword) (s : Syndrome) : Codeword :=
  match Config.correctionMode with
  | .toggle => if s = 0#3 then cw else flipPosition cw s.toNat

/-- `extract(cc)`: the data bits at positions 3, 5, 6, 7 (R153). -/
def extract (cc : Codeword) : Payload :=
  BitVec.ofBool cc[4] ++ BitVec.ofBool cc[2] ++ BitVec.ofBool cc[1] ++ BitVec.ofBool cc[0]

/-- SYN (R160). -/
def execSyn (operand : Operand) (s : State) : Result :=
  if codewordReservedSet operand then raise .illegalCmd s
  else
    let syn := syndrome (codewordOf operand)
    respond .ok (zext15 syn) syn s

/-- COR (R161). -/
def execCor (operand : Operand) (s : State) : Result :=
  if codewordReservedSet operand then raise .illegalCmd s
  else
    let syn := syndrome (codewordOf operand)
    respond .ok (zext15 (correct (codewordOf operand) syn)) syn s

/-- DEC (R162). Two or more flipped bits give whatever these functions compute (R155): no status reports them. -/
def execDec (operand : Operand) (s : State) : Result :=
  if codewordReservedSet operand then raise .illegalCmd s
  else
    let syn := syndrome (codewordOf operand)
    respond .ok (zext15 (extract (correct (codewordOf operand) syn))) syn s

end Sys2Proof.Machine
end

