-- ==== Sys2Proof/Machine/FrameParser.lean ====
section
/-! DEFINITION. FrameParser: PARSE (spec/42_frame_parser.md). -/

namespace Sys2Proof.Machine

/-- `markers_ok(fr)` (R130). -/
def markersOk (fr : Frame) : Bool :=
  frameHeader fr == Config.header && frameTerminator fr == Config.terminator

/-- PARSE (R140): the marker check comes first and short-circuits (R132); no reserved bits, so never ILLEGAL_CMD. -/
def execParse (operand : Operand) (s : State) : Result :=
  let fr := frameOf operand
  if !markersOk fr then raise .invalidFrame s
  else
    let cw := frameCodeword fr
    let syn := syndrome cw
    respond .ok (zext15 (extract (correct cw syn))) syn s

end Sys2Proof.Machine
end

