-- ==== Sys2Proof/Machine/Dispatch.lean ====
section
/-! DEFINITION. One arm per operation (spec/30_encoding.md R63). -/

namespace Sys2Proof.Machine

def exec (i : Instr) (s : State) : Host.Outcome State Fault Refusal :=
  match i with
  | .enc operand => Sys2Proof.Machine.execEnc operand s
  | .bld operand => Sys2Proof.Machine.execBld operand s
  | .encf operand => Sys2Proof.Machine.execEncf operand s
  | .syn operand => Sys2Proof.Machine.execSyn operand s
  | .cor operand => Sys2Proof.Machine.execCor operand s
  | .dec operand => Sys2Proof.Machine.execDec operand s
  | .parse operand => Sys2Proof.Machine.execParse operand s

end Sys2Proof.Machine
end

