-- ==== Sys2Proof/Machine/HostProgram.lean ====
section
/-! DEFINITION. Host programs (spec/30_encoding.md R71): forming an operand from earlier responses with the notation of
spec/00_scope.md R11 and R12, binding a response to a variable, and testing a status. Host loops are written out. Where
the spec states no value, the program reads a free one: `free` gives it for each place in the expression, place 0 being
the operand field itself and the status of a test (log 8). -/

namespace Sys2Proof.Machine

/-- The bit a comparison gives. -/
def boolValue (b : Bool) : Nat := if b then 1 else 0

/-- `~a`: the inverse of one bit is `1 - a` (spec/00_scope.md R12). DESIGN CHOICE (log 8): a value is taken for one bit
by its magnitude, when it is 0 or 1, also where it is a `$v.res`, whose field has 15 bits (spec/10_state.md R23); for
any other value, to which the spec gives no inverse, the result is free. -/
def inverseBit (free x : Nat) : Nat := if x < 2 then 1 - x else free

/-- `{a, b}` with b of the written width (spec/00_scope.md R12). DESIGN CHOICE (log 8): whether b has that width is
judged by its magnitude; when it does not, the spec states no value and the result is free. -/
def concatenate (free width a b : Nat) : Nat := if b < 2 ^ width then a * 2 ^ width + b else free

/-- `v[hi:lo]` (spec/00_scope.md R11); the spec states no value when hi is below lo (log 8). -/
def sliceBits (free hi lo v : Nat) : Nat := if lo ≤ hi then v / 2 ^ lo % 2 ^ (hi + 1 - lo) else free

/-- `$v.res` as a number; the spec states none for a variable that no command has bound (log 8). -/
def variableResult (free : Nat) (h : HostState) (v : VarName) : Nat :=
  match h.lookup v with
  | some r => r.res.toNat
  | none => free

/-- The value of an operand expression, an unsigned number (spec/00_scope.md R11, R12; log 8). An operand of the
operator at `place` stands at `2 * place`, the second one at `2 * place + 1`. -/
def evalHostExpr (free : Nat → Nat) (h : HostState) : Nat → HostExpr → Nat
  | _, .lit n => n
  | place, .res v => variableResult (free place) h v
  | place, .xor a b => evalHostExpr free h (2 * place) a ^^^ evalHostExpr free h (2 * place + 1) b
  | place, .inv a => inverseBit (free place) (evalHostExpr free h (2 * place) a)
  | place, .cat a width b =>
    concatenate (free place) width (evalHostExpr free h (2 * place) a) (evalHostExpr free h (2 * place + 1) b)
  | place, .add a b => evalHostExpr free h (2 * place) a + evalHostExpr free h (2 * place + 1) b
  | place, .mul a b => evalHostExpr free h (2 * place) a * evalHostExpr free h (2 * place + 1) b
  | place, .pow2 k => 2 ^ evalHostExpr free h (2 * place) k
  | place, .slice v hi lo => sliceBits (free place) hi lo (evalHostExpr free h (2 * place) v)
  | place, .eq a b => boolValue (evalHostExpr free h (2 * place) a == evalHostExpr free h (2 * place + 1) b)
  | place, .ne a b => boolValue (evalHostExpr free h (2 * place) a != evalHostExpr free h (2 * place + 1) b)

/-- The value of a whole operand expression. -/
def operandValue (free : Nat → Nat) (h : HostState) (e : HostExpr) : Nat := evalHostExpr free h 1 e

/-- The operand field of an operand formed from responses: `operand` is an unsigned 15-bit number that is neither masked
nor shifted (spec/30_encoding.md R61), so a value of 15 bits is the field itself. One that is too wide for the operation
sets a reserved bit, and the core answers it ILLEGAL_CMD (R65, spec/20_memory.md R47). No field holds a value of more than
15 bits, and the spec states none for it: it is free (log 8). -/
def formedOperand (free x : Nat) : Operand := if x < 2 ^ 15 then BitVec.ofNat 15 x else BitVec.ofNat 15 free

/-- The command word of an operation with its operand, whose value is `x`: for a literal the word of spec/30_encoding.md
R69, or none when it does not fit its width; otherwise the operation with the formed operand field (R71). -/
def formCommand (free : Nat) (op : Op) (x : Nat) : HostExpr → Except Refusal Word
  | .lit n =>
    if n < 2 ^ op.valueWidth then .ok (encode (op.instr (BitVec.ofNat 15 n)))
    else .error (.literalDoesNotAssemble op n)
  | _ => .ok (encode (op.instr (formedOperand free x)))

/-- The command word of a host command: a raw word as it is, or an operation with its operand
(spec/30_encoding.md R69, R71). -/
def resolveHostCmd (free : Nat → Nat) (h : HostState) : HostCmd → Except Refusal Word
  | .raw w => .ok w
  | .form op e => formCommand (free 0) op (operandValue free h e) e

/-- The host issues a command and waits for its response (spec/30_encoding.md R71). -/
def hostIssue (free : Nat → Nat) (bindTo : Option VarName) (cmd : HostCmd) (h : HostState) :
    Except Refusal HostState :=
  match resolveHostCmd free h cmd with
  | .ok w => .ok (h.await { cmd := w, who := .host bindTo, response := none })
  | .error e => .error e

/-- A status by number, for the free status of an unbound variable. -/
def Status.ofNumber (n : Nat) : Status :=
  match n % 4 with
  | 0 => .ok
  | 1 => .invalidFrame
  | 2 => .invalidPayload
  | _ => .illegalCmd

/-- `$v.status`; the spec states none for a variable that no command has bound (log 8). -/
def variableStatus (free : Nat) (h : HostState) (v : VarName) : Status :=
  match h.lookup v with
  | some r => r.status
  | none => Status.ofNumber free

/-- The host tests `$v.status` and leaves out the next `skip` actions when the test fails
(spec/30_encoding.md R71; log 8). -/
def hostTest (free : Nat → Nat) (v : VarName) (equal : Bool) (status : Status) (skip : Nat) (h : HostState) :
    HostState :=
  if (variableStatus (free 0) h v == status) == equal then h else h.dropActions skip

/-- The host leaves out the next `skip` actions. -/
def hostJump (skip : Nat) (h : HostState) : HostState := h.dropActions skip

/-- The host has its response: it binds it, if the command stands in `$v = <command>` (spec/30_encoding.md R71). -/
def hostFinish (bindTo : Option VarName) (r : Response) (h : HostState) : HostState :=
  match bindTo with
  | some v => h.release.bind v r
  | none => h.release

end Sys2Proof.Machine
end

