-- ==== Sys2Proof/Machine/Wire.lean ====
section
/-! DEFINITION. The sender and receiver surfaces (spec/44_wire_interface.md): the checks on characters and lengths, the
command each issues, and what each writes. -/

namespace Sys2Proof.Machine

/-- The line feed (R185). -/
def lineFeed : Char := '\n'

/-- The four characters of the header (R180, R186). -/
def headerChars : Text := ['1', '0', '1', '0']

/-- The four characters of the terminator (R180, R186). -/
def terminatorChars : Text := ['0', '1', '0', '1']

/-- The literal text "Erro: Frame inválido." (R189): 21 characters, 'á' being U+00E1. -/
def invalidFrameText : Text :=
  ['E', 'r', 'r', 'o', ':', ' ', 'F', 'r', 'a', 'm', 'e', ' ', 'i', 'n', 'v', '\u00E1', 'l', 'i', 'd', 'o', '.']

/-- The UTF-8 bytes of a character (R189: the text encoding is UTF-8). -/
def utf8Char (c : Char) : List (BitVec 8) :=
  let n := c.toNat
  if n < 0x80 then [BitVec.ofNat 8 n]
  else if n < 0x800 then [BitVec.ofNat 8 (0xC0 + n / 64), BitVec.ofNat 8 (0x80 + n % 64)]
  else if n < 0x10000 then
    [BitVec.ofNat 8 (0xE0 + n / 4096), BitVec.ofNat 8 (0x80 + n / 64 % 64), BitVec.ofNat 8 (0x80 + n % 64)]
  else
    [BitVec.ofNat 8 (0xF0 + n / 262144), BitVec.ofNat 8 (0x80 + n / 4096 % 64),
      BitVec.ofNat 8 (0x80 + n / 64 % 64), BitVec.ofNat 8 (0x80 + n % 64)]

/-- The bytes of a text on the wire (R189). -/
def utf8 (t : Text) : List (BitVec 8) := t.flatMap utf8Char

/-- The bytes a run wrote to standard output. -/
def SurfaceRun.stdoutBytes (r : SurfaceRun) : List (BitVec 8) := utf8 r.stdout

/-- The sender's argument check (R181): exactly one argument, of exactly four characters '0' or '1'. -/
def senderPayload (args : List Text) : Option Payload :=
  match args with
  | [arg] => if arg.length == 4 && arg.all isBitChar then some (bits 4 arg) else none
  | _ => none

/-- The command a sender issues for a payload: ENCF (R182). -/
def senderCommand (pl : Payload) : Word := encode (.encf (zext15 pl))

/-- What a sender writes for the core's response (R182): the 15 characters of the frame and one LF, exit status 0. -/
def senderFinish (args : List Text) (stdin : Text) (r : Response) (h : HostState) : HostState :=
  h.release.record
    { surface := .sender, input := args, unread := stdin, status := .ok,
      stdout := chars r.res ++ [lineFeed], exitStatus := 0 }

/-- A sender run starts (R181, R183): a valid payload goes to the core. Anything else fails at once: no command,
the message and one LF, exit status 0, INVALID_PAYLOAD (R184). Standard input is not read. -/
def senderStart (message : Text) (args : List Text) (stdin : Text) (h : HostState) : HostState :=
  match senderPayload args with
  | some pl => h.await { cmd := senderCommand pl, who := .sender args stdin, response := none }
  | none =>
    h.record
      { surface := .sender, input := args, unread := stdin, status := .invalidPayload,
        stdout := message ++ [lineFeed], exitStatus := 0 }

/-- The candidate (R185): the characters before the first LF, or all of them when there is none. -/
def candidateOf (stdin : Text) : Text := stdin.takeWhile (· != lineFeed)

/-- What the receiver leaves unread: the characters after the first LF (R185). -/
def unreadOf (stdin : Text) : Text := (stdin.dropWhile (· != lineFeed)).drop 1

/-- The marker check on the candidate string (R186). -/
def candidateMarkersOk (t : Text) : Bool := headerChars.isPrefixOf t && terminatorChars.isSuffixOf t

/-- The length and alphabet check (R187): 15 characters, and characters 4..10 each '0' or '1'. -/
def candidateShapeOk (t : Text) : Bool := t.length == 15 && ((t.drop 4).take 7).all isBitChar

/-- The receiver's checks (R186, R187): the frame of a candidate that passes both. -/
def receiverFrame (t : Text) : Option Frame :=
  if candidateMarkersOk t && candidateShapeOk t then some (bits 15 t) else none

/-- The command a receiver issues for a frame: PARSE (R188). -/
def receiverCommand (fr : Frame) : Word := encode (.parse fr)

/-- What a receiver writes for the core's response (R188): the 4 characters of `res[3:0]` and one LF, exit status 0. -/
def receiverFinish (candidate unread : Text) (r : Response) (h : HostState) : HostState :=
  h.release.record
    { surface := .receiver, input := [candidate], unread := unread, status := .ok,
      stdout := chars (payloadOf r.res) ++ [lineFeed], exitStatus := 0 }

/-- A receiver run starts (R185): a candidate that passes the checks goes to the core. Any other is InvalidFrameFormat:
no command is issued (R189 allows either; log 7), the literal text and one LF are written, exit status 0. -/
def receiverStart (stdin : Text) (h : HostState) : HostState :=
  match receiverFrame (candidateOf stdin) with
  | some fr =>
    h.await
      { cmd := receiverCommand fr, who := .receiver (candidateOf stdin) (unreadOf stdin), response := none }
  | none =>
    h.record
      { surface := .receiver, input := [candidateOf stdin], unread := unreadOf stdin, status := .invalidFrame,
        stdout := invalidFrameText ++ [lineFeed], exitStatus := 0 }

end Sys2Proof.Machine
end

