-- ==== Sys2Proof/Machine/Transaction.lean ====
section
/-! DEFINITION. What each agent does on its turn: the core serves the command on its port; a host presents its command,
reads its response or takes its next action; a reset arrives. -/

namespace Sys2Proof.Machine

/-- The core serves one command word, from command to response in one step (spec/20_memory.md R48). An illegal word is
answered ILLEGAL_CMD before any operation starts (spec/30_encoding.md R64, R65, R67; spec/60_exceptions.md R205). -/
def serve (w : Word) (s : State) : Result :=
  match decode w with
  | .ok i => exec i s
  | .error _ => raise .illegalCmd s

/-- The core's turn: it takes the command on its port, places the response and hands it to the host whose command it
was (spec/60_exceptions.md R211). With no command it waits (spec/70_reset_and_hazards.md R230). -/
def coreStep (s : State) : Result :=
  match s.cmdPort with
  | some w => deliverResult s.portHost (serve w s.takeCommand)
  | none => .next s

/-- A reset arrives (spec/70_reset_and_hazards.md R230, R231, R232). A command being served ends with no response, or
finishes with its full response: a free value says which (log 3). With no command being served, there is nothing in the
core to reset, and the response port carries no response afterwards (log 1). -/
def resetStep (s : State) : Result :=
  match s.cmdPort with
  | some w =>
    if Config.resetCutsTransaction s.freeCount then .next s.takeCommand.clearResponse.countFree
    else deliverResult s.portHost (serve w s.takeCommand.countFree)
  | none => .next s.clearResponse

/-- A host does with its response what it was waiting for. -/
def finish (who : Client) (r : Response) (h : HostState) : HostState :=
  match who with
  | .host bindTo => hostFinish bindTo r h
  | .sender args stdin => senderFinish args stdin r h
  | .receiver candidate unread => receiverFinish candidate unread r h

/-- A host takes an action. -/
def hostAct (free : Nat → Nat) (a : HostAction) (h : HostState) : Except Refusal HostState :=
  match a with
  | .issue bindTo cmd => hostIssue free bindTo cmd h
  | .test v equal status skip => .ok (hostTest free v equal status skip h)
  | .jump skip => .ok (hostJump skip h)
  | .send args stdin => .ok (senderStart Config.invalidPayloadMessage args stdin h)
  | .receive stdin => .ok (receiverStart stdin h)

/-- What a host does by itself: it uses the response it has; with no transaction outstanding it takes its next action.
It reads and writes nothing but its own state (spec/20_memory.md R49, spec/60_exceptions.md R211). -/
def hostMove (n : Nat) (h : HostState) : Except Refusal HostState :=
  match h.waiting with
  | some p =>
    match p.response with
    | some r => .ok (finish p.who r h)
    | none => .ok h
  | none =>
    match h.script with
    | [] => .ok h
    | a :: _ => hostAct (Config.freeHostValue n h.freeCount) a (h.dropActions 1).countFree

/-- The turn of host number n. One that has seen no response to its command presents it when the command port is free:
for the first time, or again after a reset ended the transaction (spec/70_reset_and_hazards.md R231; log 14). While
another command stands on the port it waits. Otherwise the host moves by itself. -/
def hostStep (n : Nat) (s : State) : Result :=
  match s.hosts[n]? with
  | none => .next s
  | some h =>
    match h.unanswered with
    | some w => .next (if s.cmdPort.isNone then s.present n w else s)
    | none =>
      match hostMove n h with
      | .ok h' => .next (s.setHost n h')
      | .error e => .refused e

/-- One step in which the agent `turn` moves. -/
def turnStep (turn : Turn) (s : State) : Result :=
  match turn with
  | .core => coreStep s
  | .reset => resetStep s
  | .host n => hostStep n s

end Sys2Proof.Machine
end

