-- ==== Sys2Proof/Machine/Step.lean ====
section
/-! DEFINITION. One step of the machine, and how an instruction is placed where the next step takes it. -/

namespace Sys2Proof.Machine

/-- One step: the agent whose turn it is moves. -/
def step (s : State) : Host.Outcome State Fault Refusal := turnStep s.turn s.tick

/-- The command word `w` (bit 0 its least significant bit) stands on the command port, presented from outside the
model, and the core has the next turn, so the next step serves it. The core fetches nothing (spec/20_memory.md R51): its
commands come over this port (log 2). A host whose command stood there issues it again on its turn, so no host gets the
response of `w`. DESIGN CHOICE (log 1): the response port is left as it is while `w` waits, so an earlier response, which
no host has a use for any more, is still on it until the core answers `w`. A command is one word of 18 bits, so `nbits`
carries nothing more (log 11). -/
def State.withFetchWord (s : State) (_nbits w : Nat) : State :=
  { s with cmdPort := some (BitVec.ofNat 18 w), portHost := none, schedule := .core :: s.schedule }

end Sys2Proof.Machine
end

