-- ==== Sys2Proof/Machine/Assembler.lean ====
section
/-! DEFINITION. The assembler notation (spec/30_encoding.md R69): one command a line, the mnemonic, one space, the
operand as a literal; `.word` places a raw command word. A line that does not assemble gives nothing. -/

namespace Sys2Proof.Machine

/-- The value of a digit in a base; hexadecimal digits in either case (log 9). -/
def digitValue (base : Nat) (c : Char) : Option Nat :=
  let v :=
    if '0' ≤ c ∧ c ≤ '9' then c.toNat - '0'.toNat
    else if 'A' ≤ c ∧ c ≤ 'F' then c.toNat - 'A'.toNat + 10
    else if 'a' ≤ c ∧ c ≤ 'f' then c.toNat - 'a'.toNat + 10
    else base
  if v < base then some v else none

/-- Read digits after those already read. -/
def digitsValue (base : Nat) : Nat → Text → Option Nat
  | acc, [] => some acc
  | acc, c :: rest =>
    match digitValue base c with
    | some v => digitsValue base (base * acc + v) rest
    | none => none

/-- A number literal `0b…` or `0x…`, with at least one digit, that fits the width. -/
def numberLiteral (width : Nat) (t : Text) : Option Nat :=
  let value :=
    match t with
    | '0' :: 'b' :: c :: rest => digitsValue 2 0 (c :: rest)
    | '0' :: 'x' :: c :: rest => digitsValue 16 0 (c :: rest)
    | _ => none
  match value with
  | some n => if n < 2 ^ width then some n else none
  | none => none

/-- A wire-order bit string of exactly the width, in single quotes (R69, spec/20_memory.md R44). -/
def quotedLiteral (width : Nat) (t : Text) : Option Nat :=
  match t with
  | '\'' :: rest =>
    let b := rest.dropLast
    if rest.getLast? == some '\'' && b.length == width && b.all isBitChar then some (bitsValue b) else none
  | _ => none

/-- An operand literal: one of the two forms of R69. -/
def operandLiteral (width : Nat) (t : Text) : Option Nat :=
  match quotedLiteral width t with
  | some n => some n
  | none => numberLiteral width t

/-- The mnemonic of an operation (R63). -/
def mnemonicOf : Op → Text
  | .enc => ['E', 'N', 'C']
  | .bld => ['B', 'L', 'D']
  | .encf => ['E', 'N', 'C', 'F']
  | .syn => ['S', 'Y', 'N']
  | .cor => ['C', 'O', 'R']
  | .dec => ['D', 'E', 'C']
  | .parse => ['P', 'A', 'R', 'S', 'E']

/-- The operation a mnemonic names. -/
def opOfMnemonic (t : Text) : Option Op := Op.all.find? fun op => mnemonicOf op == t

/-- The word of a raw-word line. -/
def wordDirective : Text := ['.', 'w', 'o', 'r', 'd']

/-- Assemble one line (R69). -/
def assemble (line : Text) : Option Word :=
  let name := line.takeWhile (· != ' ')
  let operand := (line.dropWhile (· != ' ')).drop 1
  if name == wordDirective then (numberLiteral 18 operand).map (BitVec.ofNat 18)
  else
    match opOfMnemonic name with
    | some op => (operandLiteral op.valueWidth operand).map fun n => encode (op.instr (BitVec.ofNat 15 n))
    | none => none

end Sys2Proof.Machine
end

