-- ==== Sys2Proof/Safety.lean ====
section
/-! DEFINITION. What a safe run of this machine is, in the terms the statements use: every response that can be seen is
a legal one (spec/10_state.md R25, spec/60_exceptions.md R200), every host that waits gets the response of its own
command (spec/20_memory.md R48, spec/60_exceptions.md R211), and every surface run prints what the spec's pure functions
say (spec/44_wire_interface.md). -/

namespace Sys2Proof.Machine

/-- A response the core may give: an error carries zeros (spec/10_state.md R25), and no core command produces
INVALID_PAYLOAD (spec/60_exceptions.md R200). -/
def Response.Legal (r : Response) : Prop :=
  (r.status ≠ .ok → r.res = 0#15 ∧ r.syn = 0#3) ∧ r.status ≠ .invalidPayload

/-- The response to a command word (spec/10_state.md R24: a function of the word alone), read off the core after
reset. -/
def responseTo (w : Word) : Option Response :=
  match serve w State.reset with
  | .next t => t.respPort
  | .fault _ => none
  | .refused _ => none

/-- Every response of a host, held in a variable or waiting to be used, is a legal one. -/
def HostState.ResponsesLegal (h : HostState) : Prop :=
  (∀ v r, (v, r) ∈ h.vars → r.Legal) ∧ (∀ p r, h.waiting = some p → p.response = some r → r.Legal)

/-- Every response on the response port and at every host is a legal one. -/
def State.ResponsesLegal (s : State) : Prop :=
  (∀ r, s.respPort = some r → r.Legal) ∧ ∀ h ∈ s.hosts, h.ResponsesLegal

/-- Responses are paired with commands (spec/20_memory.md R48, spec/60_exceptions.md R211): the command a host has on the
command port is the one that very host waits on, unanswered; and a host that waits has no response, or the response to
its own command. -/
structure State.Paired (s : State) : Prop where
  port : ∀ n w, s.portHost = some n → s.cmdPort = some w →
    ∃ h p, s.hosts[n]? = some h ∧ h.waiting = some p ∧ p.cmd = w ∧ p.response = none
  answered : ∀ h ∈ s.hosts, ∀ p, h.waiting = some p → p.response = none ∨ p.response = responseTo p.cmd

/-- What a sender run reports and prints: the frame of its payload, or the message
(spec/44_wire_interface.md R182, R184). -/
def senderReport (message : Text) (args : List Text) : Status × Text :=
  match senderPayload args with
  | some pl => (.ok, chars (buildFrame (hammingEncode pl)) ++ [lineFeed])
  | none => (.invalidPayload, message ++ [lineFeed])

/-- What a receiver run reports and prints: the payload recovered from its candidate, or the error text
(spec/44_wire_interface.md R188, R189). -/
def receiverReport (candidate : Text) : Status × Text :=
  match receiverFrame candidate with
  | some fr =>
    (.ok, chars (extract (correct (frameCodeword fr) (syndrome (frameCodeword fr)))) ++ [lineFeed])
  | none => (.invalidFrame, invalidFrameText ++ [lineFeed])

/-- A finished run reports and prints what its surface's pure function says of its input, with exit status 0. -/
def SurfaceRun.Correct (r : SurfaceRun) : Prop :=
  r.exitStatus = 0 ∧
  match r.surface with
  | .sender => (r.status, r.stdout) = senderReport Config.invalidPayloadMessage r.input
  | .receiver => ∃ candidate, r.input = [candidate] ∧ (r.status, r.stdout) = receiverReport candidate

/-- A waiting surface has issued the command of its own input. -/
def Pending.Faithful (p : Pending) : Prop :=
  match p.who with
  | .host _ => True
  | .sender args _ => ∃ pl, senderPayload args = some pl ∧ p.cmd = senderCommand pl
  | .receiver candidate _ => ∃ fr, receiverFrame candidate = some fr ∧ p.cmd = receiverCommand fr

/-- A host's waiting surface is faithful to its input, and each of its finished runs is correct. -/
structure HostState.SurfacesCorrect (h : HostState) : Prop where
  faithful : ∀ p, h.waiting = some p → p.Faithful
  correct  : ∀ r ∈ h.runs, r.Correct

/-- Transactions are paired, and every host's surfaces are correct. -/
structure State.SurfacesCorrect (s : State) : Prop where
  paired : s.Paired
  hosts  : ∀ h ∈ s.hosts, h.SurfacesCorrect

/-- A command that assembles: a literal operand fits its operation's width (spec/30_encoding.md R69). -/
def HostAction.Assembled : HostAction → Prop
  | .issue _ (.form op (.lit n)) => n < 2 ^ op.valueWidth
  | _ => True

/-- Every command that some host has yet to issue assembles. -/
def State.Assembled (s : State) : Prop := ∀ h ∈ s.hosts, ∀ a ∈ h.script, a.Assembled

/-- Host number n waits for nothing, and the action it takes next is a. -/
def State.NextAction (s : State) (n : Nat) (h : HostState) (a : HostAction) (rest : List HostAction) : Prop :=
  s.hosts[n]? = some h ∧ h.waiting = none ∧ h.script = a :: rest

/-- Host number n has the core to itself for one transaction: the command port is free, and in the next four turns the
host issues its command, presents it, the core serves it, and the host uses the response (log 2). -/
def State.OneTransaction (s : State) (n : Nat) (later : List Turn) : Prop :=
  s.cmdPort = none ∧ s.schedule = [.host n, .host n, .core, .host n] ++ later

end Sys2Proof.Machine
end

