-- ==== Sys2Proof/Certificates/Slice0/Obligations.lean ====
section
/-! DEFINITION. The statements about this machine, from the numbered rules of spec/. A response is written out as
⟨status, res, syn⟩; a next state written as a record update of s says that every other field is unchanged. -/

open Sys2Proof Sys2Proof.Machine

/-! ### Encoding -/

/-- spec/30_encoding.md R69 (its examples) and R64, R65: words written out bit by bit decode to what they stand for. -/
def Obligations.SpecExampleWordsDecode : Prop :=
  decode 0b000000000000001011#18 = .ok (.enc 0xB#15) ∧
  decode 0b001000000000110011#18 = .ok (.bld 0x33#15) ∧
  decode 0b010000000000001011#18 = .ok (.encf 0xB#15) ∧
  decode 0b011000000000100011#18 = .ok (.syn 0x23#15) ∧
  decode 0b100000000000100011#18 = .ok (.cor 0x23#15) ∧
  decode 0b101000000000100011#18 = .ok (.dec 0x23#15) ∧
  decode 0b110101001100110101#18 = .ok (.parse 0x5335#15) ∧
  decode 0b111000000000000000#18 = .error .reservedOp ∧
  decode 0b000000000000010000#18 = .error (.reservedOperandBits .enc) ∧
  decode 0b001000000010000000#18 = .error (.reservedOperandBits .bld)

/-- spec/30_encoding.md R60, R62, R65: decoding an encoded well-formed operation gives it back, for every operation and
every operand; an ill-formed one is rejected by the name of its reserved bits. -/
def Obligations.DecodeOfEncodeIsInstruction : Prop :=
  (∀ i : Instr, i.wellFormed = true → decode (encode i) = .ok i) ∧
  (∀ i : Instr, i.wellFormed = false → decode (encode i) = .error (.reservedOperandBits i.op))

/-- spec/30_encoding.md R60, R62: a word that decodes is the word of a well-formed operation. -/
def Obligations.EncodeOfDecodeIsWord : Prop :=
  ∀ (w : Word) (i : Instr), decode w = .ok i → i.wellFormed = true ∧ encode i = w

/-- spec/30_encoding.md R66: every word selects exactly one row of the match and mask table, decodes to that operation
with the operand in its low 15 bits, and is served as it; or it selects no row and is answered ILLEGAL_CMD. -/
def Obligations.WordSelectsRowByMaskAndMatch : Prop :=
  ∀ w : Word,
    (∃ op : Op, w &&& op.mask = op.pattern ∧ (∀ op' : Op, w &&& op'.mask = op'.pattern → op' = op) ∧
      decode w = .ok (op.instr (w.extractLsb' 0 15)) ∧
      ∀ s, serve w s = exec (op.instr (w.extractLsb' 0 15)) s) ∨
    ((∀ op : Op, w &&& op.mask ≠ op.pattern) ∧
      ∀ s : State, serve w s = .next { s with respPort := some ⟨.illegalCmd, 0#15, 0#3⟩ })

/-- spec/30_encoding.md R64: op 7 is answered `status = 3`, `res = 0`, `syn = 0`, whatever its operand. -/
def Obligations.ReservedOperationIsIllegal : Prop :=
  ∀ (s : State) (operand : BitVec 15),
    s.turn = .core → s.cmdPort = some ((7#3 ++ operand : BitVec 18)) →
    step s = .next (State.deliver { s with
      cmdPort := none, portHost := none, respPort := some ⟨.illegalCmd, 0#15, 0#3⟩, schedule := s.schedule.tail }
      s.portHost) ∧
    Status.illegalCmd.code = 3#2

/-- spec/30_encoding.md R65: op 0 and 2 with `operand[14:4] != 0`, and op 1, 3, 4, 5 with `operand[14:7] != 0`, are
answered ILLEGAL_CMD and nothing of the operation is computed; PARSE has no reserved bits. -/
def Obligations.ReservedOperandBitsAreIllegal : Prop :=
  ∀ (s : State) (op : BitVec 3) (operand : BitVec 15),
    s.turn = .core → s.cmdPort = some ((op ++ operand : BitVec 18)) →
    ((op = 0#3 ∨ op = 2#3) ∧ operand.extractLsb' 4 11 ≠ 0#11 ∨
      (op = 1#3 ∨ op = 3#3 ∨ op = 4#3 ∨ op = 5#3) ∧ operand.extractLsb' 7 8 ≠ 0#8 →
      step s = .next (State.deliver { s with
        cmdPort := none, portHost := none, respPort := some ⟨.illegalCmd, 0#15, 0#3⟩, schedule := s.schedule.tail }
        s.portHost)) ∧
    (op = 6#3 → ∃ r : Response, r.status ≠ .illegalCmd ∧
      step s = .next (State.deliver { s with
        cmdPort := none, portHost := none, respPort := some r, schedule := s.schedule.tail } s.portHost))

/-! ### A step runs the decoded operation -/

/-- spec/20_memory.md R48, spec/30_encoding.md R67: the core's step takes the word off the command port, is the decoded
operation at that state, and hands the response to the host whose command it was (spec/60_exceptions.md R211). -/
def Obligations.StepRunsDecodedOperation : Prop :=
  ∀ (s : State) (w : Word) (i : Instr),
    s.turn = .core → s.cmdPort = some w → decode w = .ok i →
    step s = deliverResult s.portHost
      (exec i { s with cmdPort := none, portHost := none, schedule := s.schedule.tail })

/-- The word that withFetchWord places is the one the very next step runs (log 2), and no host gets its response, not
even one whose command stood on the port. -/
def Obligations.InjectedWordRunsNext : Prop :=
  ∀ (s : State) (nbits w : Nat) (i : Instr), decodeTableWord nbits w = some i →
    ∃ t : State, step (s.withFetchWord nbits w) = .next t ∧
      exec i { s with cmdPort := none, portHost := none } = .next t ∧ t.hosts = s.hosts

/-- spec/20_memory.md R42: every operation, on every operand, answers a next state in which only the response port has
changed; so no operation faults or is refused, and none has a side effect beyond its response. -/
def Obligations.OperationChangesOnlyTheResponsePort : Prop :=
  ∀ (i : Instr) (s : State), ∃ r : Response, exec i s = .next { s with respPort := some r }

/-- spec/60_exceptions.md R205: the status of the response to any command, its conditions in the order of the rule. -/
def Obligations.StatusFollowsPriority : Prop :=
  ∀ (op : BitVec 3) (operand : BitVec 15) (s : State),
    ∃ r : Response, serve ((op ++ operand : BitVec 18)) s = .next { s with respPort := some r } ∧
      r.status =
        if op = 7#3 then .illegalCmd
        else if (op = 0#3 ∨ op = 2#3) ∧ operand.extractLsb' 4 11 ≠ 0#11 then .illegalCmd
        else if (op = 1#3 ∨ op = 3#3 ∨ op = 4#3 ∨ op = 5#3) ∧ operand.extractLsb' 7 8 ≠ 0#8 then .illegalCmd
        else if op = 6#3 ∧ ¬(operand.extractLsb' 11 4 = 0b1010#4 ∧ operand.extractLsb' 0 4 = 0b0101#4) then
          .invalidFrame
        else .ok

/-! ### Results, one statement per operation -/

/-- spec/41_encoder_framebuilder.md R100, R110: ENC answers the codeword p1 p2 d1 p3 d2 d3 d4 of its payload, syn 0, and
changes nothing but the response port; different payloads give different codewords; a reserved bit gives ILLEGAL_CMD. -/
def Obligations.EncAnswersCodeword : Prop :=
  (∀ (pl : Payload) (s : State), ∃ cw : Codeword,
    decode (0x00000#18 ||| pl.setWidth 18) = .ok (.enc (pl.setWidth 15)) ∧
    exec (.enc (pl.setWidth 15)) s = .next { s with respPort := some ⟨.ok, cw.setWidth 15, 0#3⟩ } ∧
    cw[6] = (pl[3] ^^ pl[2] ^^ pl[0]) ∧ cw[5] = (pl[3] ^^ pl[1] ^^ pl[0]) ∧ cw[4] = pl[3] ∧
    cw[3] = (pl[2] ^^ pl[1] ^^ pl[0]) ∧ cw[2] = pl[2] ∧ cw[1] = pl[1] ∧ cw[0] = pl[0] ∧
    (cw = 0x00#7 ↔ pl = 0x0#4) ∧ (cw = 0x7F#7 ↔ pl = 0xF#4)) ∧
  (∀ (p q : Payload) (s : State), exec (.enc (p.setWidth 15)) s = exec (.enc (q.setWidth 15)) s → p = q) ∧
  (∀ (x : Operand) (s : State), 16 ≤ x.toNat →
    exec (.enc x) s = .next { s with respPort := some ⟨.illegalCmd, 0#15, 0#3⟩ })

/-- spec/41_encoder_framebuilder.md R101, R111: BLD answers header 1010, the codeword, terminator 0101, for every
codeword value, syn 0; a reserved bit gives ILLEGAL_CMD. -/
def Obligations.BldAnswersFrame : Prop :=
  (∀ (cw : Codeword) (s : State), ∃ fr : Frame,
    decode (0x08000#18 ||| cw.setWidth 18) = .ok (.bld (cw.setWidth 15)) ∧
    exec (.bld (cw.setWidth 15)) s = .next { s with respPort := some ⟨.ok, fr, 0#3⟩ } ∧
    fr.extractLsb' 11 4 = 0b1010#4 ∧ fr.extractLsb' 4 7 = cw ∧ fr.extractLsb' 0 4 = 0b0101#4) ∧
  (∀ (x : Operand) (s : State), 128 ≤ x.toNat →
    exec (.bld x) s = .next { s with respPort := some ⟨.illegalCmd, 0#15, 0#3⟩ })

/-- spec/41_encoder_framebuilder.md R112: ENCF answers the frame of its payload's codeword, syn 0: the response of BLD on
the `res` of ENC; a reserved bit gives ILLEGAL_CMD. -/
def Obligations.EncfAnswersFrameOfCodeword : Prop :=
  (∀ (pl : Payload) (s : State), ∃ (cw : Codeword) (fr : Frame),
    decode (0x10000#18 ||| pl.setWidth 18) = .ok (.encf (pl.setWidth 15)) ∧
    exec (.encf (pl.setWidth 15)) s = .next { s with respPort := some ⟨.ok, fr, 0#3⟩ } ∧
    exec (.enc (pl.setWidth 15)) s = .next { s with respPort := some ⟨.ok, cw.setWidth 15, 0#3⟩ } ∧
    exec (.bld (cw.setWidth 15)) s = .next { s with respPort := some ⟨.ok, fr, 0#3⟩ } ∧
    fr.extractLsb' 11 4 = 0b1010#4 ∧ fr.extractLsb' 4 7 = cw ∧ fr.extractLsb' 0 4 = 0b0101#4) ∧
  (∀ (x : Operand) (s : State), 16 ≤ x.toNat →
    exec (.encf x) s = .next { s with respPort := some ⟨.illegalCmd, 0#15, 0#3⟩ })

/-- spec/43_syndrome_corrector.md R150, R160: SYN answers c1 + 2*c2 + 4*c3 in `res` and in `syn`; a reserved bit gives
ILLEGAL_CMD. -/
def Obligations.SynAnswersSyndrome : Prop :=
  (∀ (cw : Codeword) (s : State), ∃ syn : Syndrome,
    decode (0x18000#18 ||| cw.setWidth 18) = .ok (.syn (cw.setWidth 15)) ∧
    exec (.syn (cw.setWidth 15)) s = .next { s with respPort := some ⟨.ok, syn.setWidth 15, syn⟩ } ∧
    syn.toNat = (cw[6] ^^ cw[4] ^^ cw[2] ^^ cw[0]).toNat + 2 * (cw[5] ^^ cw[4] ^^ cw[1] ^^ cw[0]).toNat
      + 4 * (cw[3] ^^ cw[2] ^^ cw[1] ^^ cw[0]).toNat) ∧
  (∀ (x : Operand) (s : State), 128 ≤ x.toNat →
    exec (.syn x) s = .next { s with respPort := some ⟨.illegalCmd, 0#15, 0#3⟩ })

/-- spec/43_syndrome_corrector.md R152, R161: COR answers the codeword with exactly the bit at the position its syndrome
names inverted (none when it is 0), always one of the 16 codewords, and the syndrome; a reserved bit gives
ILLEGAL_CMD. -/
def Obligations.CorAnswersCorrectedCodeword : Prop :=
  (∀ (cw : Codeword) (s : State), ∃ (cc : Codeword) (syn : Syndrome),
    decode (0x20000#18 ||| cw.setWidth 18) = .ok (.cor (cw.setWidth 15)) ∧
    exec (.cor (cw.setWidth 15)) s = .next { s with respPort := some ⟨.ok, cc.setWidth 15, syn⟩ } ∧
    exec (.syn (cw.setWidth 15)) s = .next { s with respPort := some ⟨.ok, syn.setWidth 15, syn⟩ } ∧
    (∀ i : Nat, 1 ≤ i → i ≤ 7 → cc.getLsbD (7 - i) = (cw.getLsbD (7 - i) ^^ decide (syn.toNat = i))) ∧
    (∃ pl : Payload, cc = hammingEncode pl)) ∧
  (∀ (x : Operand) (s : State), 128 ≤ x.toNat →
    exec (.cor x) s = .next { s with respPort := some ⟨.illegalCmd, 0#15, 0#3⟩ })

/-- spec/43_syndrome_corrector.md R153, R162: DEC answers the bits at positions 3, 5, 6, 7 of what COR answers, and the
same syndrome; a reserved bit gives ILLEGAL_CMD. -/
def Obligations.DecAnswersPayload : Prop :=
  (∀ (cw : Codeword) (s : State), ∃ (cc : Codeword) (pl : Payload) (syn : Syndrome),
    decode (0x28000#18 ||| cw.setWidth 18) = .ok (.dec (cw.setWidth 15)) ∧
    exec (.dec (cw.setWidth 15)) s = .next { s with respPort := some ⟨.ok, pl.setWidth 15, syn⟩ } ∧
    exec (.cor (cw.setWidth 15)) s = .next { s with respPort := some ⟨.ok, cc.setWidth 15, syn⟩ } ∧
    pl[3] = cc[4] ∧ pl[2] = cc[2] ∧ pl[1] = cc[1] ∧ pl[0] = cc[0] ∧
    (syn = 0#3 → cc = cw)) ∧
  (∀ (x : Operand) (s : State), 128 ≤ x.toNat →
    exec (.dec x) s = .next { s with respPort := some ⟨.illegalCmd, 0#15, 0#3⟩ })

/-- spec/42_frame_parser.md R130, R131, R132, R140: PARSE answers as DEC does on the middle 7 bits when both markers
stand, and INVALID_FRAME with zeros otherwise; it is never ILLEGAL_CMD. -/
def Obligations.ParseAnswersPayloadOrInvalidFrame : Prop :=
  ∀ (fr : Frame) (s : State),
    decode (0x30000#18 ||| fr.setWidth 18) = .ok (.parse fr) ∧
    (fr.extractLsb' 11 4 = 0b1010#4 ∧ fr.extractLsb' 0 4 = 0b0101#4 →
      ∃ (pl : Payload) (syn : Syndrome),
        exec (.parse fr) s = .next { s with respPort := some ⟨.ok, pl.setWidth 15, syn⟩ } ∧
        exec (.dec ((fr.extractLsb' 4 7).setWidth 15)) s =
          .next { s with respPort := some ⟨.ok, pl.setWidth 15, syn⟩ }) ∧
    (¬(fr.extractLsb' 11 4 = 0b1010#4 ∧ fr.extractLsb' 0 4 = 0b0101#4) →
      exec (.parse fr) s = .next { s with respPort := some ⟨.invalidFrame, 0#15, 0#3⟩ })

/-- The table of spec/41_encoder_framebuilder.md R103: payload, codeword, frame. -/
def Sys2Proof.codeTable : List (Payload × Codeword × Frame) :=
  [(0x0, 0x00, 0x5005), (0x1, 0x69, 0x5695), (0x2, 0x2A, 0x52A5), (0x3, 0x43, 0x5435),
   (0x4, 0x4C, 0x54C5), (0x5, 0x25, 0x5255), (0x6, 0x66, 0x5665), (0x7, 0x0F, 0x50F5)] ++
  [(0x8, 0x70, 0x5705), (0x9, 0x19, 0x5195), (0xA, 0x5A, 0x55A5), (0xB, 0x33, 0x5335),
   (0xC, 0x3C, 0x53C5), (0xD, 0x55, 0x5555), (0xE, 0x16, 0x5165), (0xF, 0x7F, 0x57F5)]

/-- spec/41_encoder_framebuilder.md R103: ENC, ENCF and BLD answer what the table says, for all 16 payloads. -/
def Obligations.EncodingTableHolds : Prop :=
  codeTable.map (·.1.toNat) = List.range 16 ∧
  ∀ row ∈ codeTable, ∀ s : State,
    exec (.enc (row.1.setWidth 15)) s = .next { s with respPort := some ⟨.ok, row.2.1.setWidth 15, 0#3⟩ } ∧
    exec (.encf (row.1.setWidth 15)) s = .next { s with respPort := some ⟨.ok, row.2.2, 0#3⟩ } ∧
    exec (.bld (row.2.1.setWidth 15)) s = .next { s with respPort := some ⟨.ok, row.2.2, 0#3⟩ }

/-- spec/30_encoding.md R70: ENCF equals BLD on the
`res` of an accepted ENC, whatever states the three transactions run in, and is illegal exactly when that ENC is. -/
def Obligations.EncfEqualsBldAfterEnc : Prop :=
  ∀ (x : Operand) (s s' u : State) (r : Response),
    exec (.enc x) s = .next s' → s'.respPort = some r →
    (r.status = .ok → exec (.encf x) u = exec (.bld r.res) u) ∧
    (r.status ≠ .ok → exec (.encf x) u = .next { u with respPort := some ⟨.illegalCmd, 0#15, 0#3⟩ })

/-! ### The code -/

/-- spec/41_encoder_framebuilder.md R102: every codeword that ENC answers has syndrome 0. -/
def Obligations.CodewordsHaveZeroSyndrome : Prop :=
  ∀ (x : Operand) (s s' u : State) (r : Response),
    exec (.enc x) s = .next s' → s'.respPort = some r → r.status = .ok →
    exec (.syn r.res) u = .next { u with respPort := some ⟨.ok, 0#15, 0#3⟩ }

/-- spec/43_syndrome_corrector.md R151: inverting position i changes the syndrome SYN answers by exactly i (check bit ck
covers the positions whose number has bit k-1 set); so a codeword with one bit inverted has that position as its
syndrome. -/
def Obligations.SyndromeNamesFlippedPosition : Prop :=
  (∀ (cw : Codeword) (i : Nat) (s : State), 1 ≤ i → i ≤ 7 → ∃ syn : Syndrome,
    exec (.syn (cw.setWidth 15)) s = .next { s with respPort := some ⟨.ok, syn.setWidth 15, syn⟩ } ∧
    exec (.syn ((cw ^^^ 1#7 <<< (7 - i)).setWidth 15)) s =
      .next { s with respPort := some ⟨.ok, (syn ^^^ BitVec.ofNat 3 i).setWidth 15, syn ^^^ BitVec.ofNat 3 i⟩ }) ∧
  (∀ (pl : Payload) (i : Nat) (s : State), 1 ≤ i → i ≤ 7 →
    exec (.syn ((hammingEncode pl ^^^ 1#7 <<< (7 - i)).setWidth 15)) s =
      .next { s with respPort := some ⟨.ok, BitVec.ofNat 15 i, BitVec.ofNat 3 i⟩ })

/-- spec/43_syndrome_corrector.md R154: DEC recovers the payload from its codeword and from the codeword with any one bit
inverted, and COR the codeword; every 7-bit word is within one inverted bit of exactly one codeword, which is what COR
answers. -/
def Obligations.SingleErrorIsCorrected : Prop :=
  (∀ (pl : Payload) (s : State),
    exec (.dec ((hammingEncode pl).setWidth 15)) s =
      .next { s with respPort := some ⟨.ok, pl.setWidth 15, 0#3⟩ } ∧
    ∀ i : Nat, 1 ≤ i → i ≤ 7 →
      exec (.dec ((hammingEncode pl ^^^ 1#7 <<< (7 - i)).setWidth 15)) s =
        .next { s with respPort := some ⟨.ok, pl.setWidth 15, BitVec.ofNat 3 i⟩ } ∧
      exec (.cor ((hammingEncode pl ^^^ 1#7 <<< (7 - i)).setWidth 15)) s =
        .next { s with respPort := some ⟨.ok, (hammingEncode pl).setWidth 15, BitVec.ofNat 3 i⟩ }) ∧
  (∀ (cw : Codeword) (s : State), ∃ (pl : Payload) (syn : Syndrome),
    exec (.cor (cw.setWidth 15)) s =
      .next { s with respPort := some ⟨.ok, (hammingEncode pl).setWidth 15, syn⟩ } ∧
    ∀ pl' : Payload,
      (cw = hammingEncode pl' ∨ ∃ i : Nat, 1 ≤ i ∧ i ≤ 7 ∧ cw = hammingEncode pl' ^^^ 1#7 <<< (7 - i)) ↔ pl' = pl)

/-- The number of positions in which two codewords differ. -/
def Sys2Proof.distance (a b : Codeword) : Nat := ((List.range 7).filter fun k => (a ^^^ b).getLsbD k).length

/-- spec/43_syndrome_corrector.md R155: with two or more inverted bits the response is OK and the payload is never the
one sent; with exactly two, at i and j, the syndrome is `i XOR j`, neither 0 nor i nor j, and COR answers a codeword
at distance 3 from the one sent. -/
def Obligations.MultipleErrorsAreSilentlyWrong : Prop :=
  (∀ (pl : Payload) (cw : Codeword) (s : State), 2 ≤ distance cw (hammingEncode pl) →
    ∃ (pl' : Payload) (syn : Syndrome), pl' ≠ pl ∧
      exec (.dec (cw.setWidth 15)) s = .next { s with respPort := some ⟨.ok, pl'.setWidth 15, syn⟩ }) ∧
  (∀ (pl : Payload) (i j : Nat) (s : State), 1 ≤ i → i < j → j ≤ 7 →
    ∃ (pl' : Payload) (syn : Syndrome), syn.toNat = i ^^^ j ∧ syn.toNat ≠ 0 ∧ syn.toNat ≠ i ∧ syn.toNat ≠ j ∧
      distance (hammingEncode pl') (hammingEncode pl) = 3 ∧
      exec (.cor ((hammingEncode pl ^^^ 1#7 <<< (7 - i) ^^^ 1#7 <<< (7 - j)).setWidth 15)) s =
        .next { s with respPort := some ⟨.ok, (hammingEncode pl').setWidth 15, syn⟩ })

/-- spec/95_test_vectors.md, section 1.4: PARSE of an ENCF frame gives the payload and syndrome 0; with codeword position
i of the frame inverted (frame bit 11 - i, spec/42_frame_parser.md R131) it gives the payload and syndrome i. -/
def Obligations.ParseInvertsEncf : Prop :=
  ∀ (x : Operand) (s s' u : State) (r : Response),
    exec (.encf x) s = .next s' → s'.respPort = some r → r.status = .ok →
    exec (.parse r.res) u = .next { u with respPort := some ⟨.ok, x, 0#3⟩ } ∧
    ∀ i : Nat, 1 ≤ i → i ≤ 7 →
      exec (.parse (r.res ^^^ 1#15 <<< (11 - i))) u =
        .next { u with respPort := some ⟨.ok, x, BitVec.ofNat 3 i⟩ }

/-- spec/42_frame_parser.md R133: the marker check looks only at the 8 marker bits (the codeword field may hold anything),
and a frame whose markers stand becomes invalid when any one marker bit is inverted. -/
def Obligations.OneFlippedMarkerBitInvalidates : Prop :=
  ∀ (fr : Frame) (s s' : State) (r : Response),
    exec (.parse fr) s = .next s' → s'.respPort = some r → r.status = .ok →
    (∀ k : Nat, k < 4 ∨ 11 ≤ k ∧ k < 15 →
      exec (.parse (fr ^^^ 1#15 <<< k)) s = .next { s with respPort := some ⟨.invalidFrame, 0#15, 0#3⟩ }) ∧
    (∀ cw : Codeword, ∃ r' : Response, r'.status = .ok ∧
      exec (.parse (0b1010#4 ++ cw ++ 0b0101#4)) s = .next { s with respPort := some r' })

/-! ### Responses and transactions -/

/-- spec/60_exceptions.md R200, the code column: the status codes by number. -/
def Obligations.StatusCodesAreTheTable : Prop :=
  Status.ok.code = 0#2 ∧ Status.invalidFrame.code = 1#2 ∧ Status.invalidPayload.code = 2#2 ∧
  Status.illegalCmd.code = 3#2 ∧ ∀ a b : Status, a.code = b.code → a = b

/-- spec/10_state.md R24: two transactions with the same command word give the same response, whatever the states they
run in. -/
def Obligations.ResponseDependsOnCommandAlone : Prop :=
  ∀ (s t : State) (w : Word),
    s.turn = .core → t.turn = .core → s.cmdPort = some w → t.cmdPort = some w →
    ∃ (s' t' : State) (r : Response),
      step s = .next s' ∧ step t = .next t' ∧ s'.respPort = some r ∧ t'.respPort = some r

/-- spec/20_memory.md R48, spec/10_state.md R23, R25: any command word whatever is taken and answered in one step of the
core by exactly one response; nothing changes but the two ports, the schedule, and, at the host whose command it was,
the response it waits for. That every command is answered at all is R236's assumption about the hardware, which the
model takes and does not check (log 10). -/
def Obligations.EveryCommandIsAnsweredInOneStep : Prop :=
  ∀ (s : State) (w : Word), s.turn = .core → s.cmdPort = some w →
    ∃ r : Response, r.Legal ∧ step s = .next (State.deliver { s with
      cmdPort := none, portHost := none, respPort := some r, schedule := s.schedule.tail } s.portHost)

/-- spec/10_state.md R25, spec/60_exceptions.md R200, R202: every step keeps it that a non-OK response carries zeros and
that no response of the core is INVALID_PAYLOAD, on the port and at every host. -/
def Obligations.StepKeepsResponsesLegal : Prop :=
  ∀ s t : State, s.ResponsesLegal → step s = .next t → t.ResponsesLegal

/-- spec/20_memory.md R48, spec/60_exceptions.md R211, spec/70_reset_and_hazards.md R231: every step of any agent, resets
included, keeps the response of each of the hosts that share the core paired with its own command. -/
def Obligations.StepKeepsTransactionsPaired : Prop :=
  ∀ s t : State, s.Paired → step s = .next t → t.Paired

/-- spec/44_wire_interface.md R182, R184, R188, R189, R191: whatever the hosts do and whenever resets arrive, every
finished sender or receiver run has reported and printed what its surface's pure function says of its input. -/
def Obligations.StepKeepsSurfacesCorrect : Prop :=
  ∀ s t : State, s.SurfacesCorrect → step s = .next t → t.SurfacesCorrect

/-- spec/70_reset_and_hazards.md R230: the machine after reset meets the four invariants. -/
def Obligations.ResetMeetsInvariants : Prop :=
  State.reset.ResponsesLegal ∧ State.reset.Paired ∧ State.reset.SurfacesCorrect ∧ State.reset.Assembled

/-- spec/70_reset_and_hazards.md R230, R232: after reset the core waits for a command and the response port carries no
response. That no host is at work and the schedule is empty is the model's choice (logs 2, 3, 5). -/
def Obligations.ResetLeavesPortsEmpty : Prop :=
  State.reset.cmdPort = none ∧ State.reset.portHost = none ∧ State.reset.respPort = none ∧ State.reset.hosts = [] ∧
  step State.reset = .next State.reset

/-! ### Reset -/

/-- spec/70_reset_and_hazards.md R231: a reset that arrives while a command is served ends the transaction with no
response, or lets it finish with its full response; a host that has seen no response issues its command again, and the
command gets the response of its word. The model's choices: that a free value and its counter `freeCount` decide between
the two outcomes (log 3), that not only a host program but a sender or receiver run issues its command again (log 14),
that presenting and serving take one step each (log 2), and that the response port is cleared when the host presents its
command and still carries the response after the step that serves it (log 1). -/
def Obligations.ResetCutsOrFinishesTransaction : Prop :=
  (∀ (s : State) (w : Word), s.turn = .reset → s.cmdPort = some w →
    ∃ r : Response, responseTo w = some r ∧
      (step s = .next { s with
         cmdPort := none, portHost := none, respPort := none, schedule := s.schedule.tail,
         freeCount := s.freeCount + 1 } ∨
       step s = .next (State.deliver { s with
         cmdPort := none, portHost := none, respPort := some r, schedule := s.schedule.tail,
         freeCount := s.freeCount + 1 } s.portHost))) ∧
  (∀ (s : State) (n : Nat) (h : HostState) (w : Word) (later : List Turn),
    s.schedule = .host n :: .core :: later → s.hosts[n]? = some h → h.unanswered = some w → s.cmdPort = none →
    step s = .next { s with
      cmdPort := some w, portHost := some n, respPort := none, schedule := .core :: later } ∧
    ∃ r : Response, responseTo w = some r ∧
      Host.Core.run core 2 s = .next { s with
        portHost := none, respPort := some r, schedule := later, hosts := s.hosts.set n (h.receive r) })

/-- spec/70_reset_and_hazards.md R230, R232: a reset that arrives while no command is served changes nothing but the
response port, which then carries no response (the model's reading, log 1). -/
def Obligations.ResetBetweenTransactionsClearsPort : Prop :=
  ∀ s : State, s.turn = .reset → s.cmdPort = none →
    step s = .next { s with respPort := none, schedule := s.schedule.tail }

/-- spec/70_reset_and_hazards.md R231, R236, spec/60_exceptions.md R211: a host that waits uses the response of its own
command, whatever the other hosts do meanwhile and however many resets cut its transaction short, once it and the core
have had two undisturbed turns each. The model's choices: being answered at all is R236's assumption about the hardware
(log 10), the number of steps is log 2's, and that a surface run issues its command again is log 14's. -/
def Obligations.EveryClientIsAnswered : Prop :=
  ∀ (s : State) (n : Nat) (h : HostState) (p : Pending) (before later : List Turn),
    s.Paired → s.Assembled → s.hosts[n]? = some h → h.waiting = some p →
    s.schedule = before ++ [.core, .host n, .core, .host n] ++ later →
    ∃ (k : Nat) (t : State) (r : Response), k ≤ before.length + 4 ∧ responseTo p.cmd = some r ∧
      Host.Core.run core k s = .next t ∧ t.hosts[n]? = some (finish p.who r h)

/-! ### Several hosts on one core -/

/-- spec/60_exceptions.md R211, spec/20_memory.md R48: the core's response goes to the host whose command it answers and
to no other host; one to a word from outside the model goes to no host. -/
def Obligations.ResponseGoesToItsHostAlone : Prop :=
  ∀ (s : State) (w : Word), s.Paired → s.turn = .core → s.cmdPort = some w →
    ∃ (t : State) (r : Response), step s = .next t ∧ responseTo w = some r ∧ t.respPort = some r ∧
      (s.portHost = none → t.hosts = s.hosts) ∧
      (∀ n : Nat, s.portHost = some n → ∃ (h : HostState) (p : Pending),
        s.hosts[n]? = some h ∧ h.waiting = some p ∧ p.cmd = w ∧ p.response = none ∧
        t.hosts = s.hosts.set n { h with waiting := some { p with response := some r } })

/-- spec/20_memory.md R49, spec/60_exceptions.md R211: a step leaves a host as it was, gives it the response to the
word that stands on the command port as its command, or is a move that the host makes out of its own state alone; no
host is added or removed. -/
def Obligations.HostsDoNotInterfere : Prop :=
  ∀ (s t : State) (n : Nat) (h : HostState), step s = .next t → s.hosts[n]? = some h →
    t.hosts.length = s.hosts.length ∧
    (t.hosts[n]? = some h ∨
     (∃ (w : Word) (r : Response), s.portHost = some n ∧ s.cmdPort = some w ∧ responseTo w = some r ∧
       t.hosts[n]? = some (h.receive r)) ∨
     (∃ h' : HostState, s.turn = .host n ∧ hostMove n h = .ok h' ∧ t.hosts[n]? = some h'))

/-- spec/60_exceptions.md R211: two hosts in the middle of their transactions at once each use the response of their own
command. That the second one's turn passes while the first one's command stands on the port, and the number of steps,
are the model's choices (logs 5, 2). -/
def Obligations.ConcurrentHostsGetTheirOwnResponses : Prop :=
  ∀ (s : State) (m n : Nat) (h k : HostState) (p q : Pending) (later : List Turn),
    m ≠ n → s.cmdPort = none → s.hosts[m]? = some h → s.hosts[n]? = some k →
    h.waiting = some p → p.response = none → k.waiting = some q → q.response = none →
    s.schedule = [.host m, .host n, .core, .host n, .core, .host m, .host n] ++ later →
    ∃ (t : State) (r r' : Response), Host.Core.run core 7 s = .next t ∧
      responseTo p.cmd = some r ∧ responseTo q.cmd = some r' ∧
      t.hosts[m]? = some (finish p.who r h) ∧ t.hosts[n]? = some (finish q.who r' k)

/-! ### The host -/

/-- spec/30_encoding.md R71: `$v = <command>` binds `$v` to that command's response and changes no other variable; a
command bound to no variable changes none. The other hosts are as they were (spec/60_exceptions.md R211). That this
takes exactly four steps is the model's choice (log 2). -/
def Obligations.HostCommandBindsItsResponse : Prop :=
  ∀ (s : State) (n : Nat) (h : HostState) (bindTo : Option VarName) (cmd : HostCmd) (w : Word)
    (rest : List HostAction) (later : List Turn),
    s.OneTransaction n later → s.NextAction n h (.issue bindTo cmd) rest →
    resolveHostCmd (Config.freeHostValue n h.freeCount) h cmd = .ok w →
    ∃ (t : State) (h' : HostState) (r : Response), Host.Core.run core 4 s = .next t ∧ responseTo w = some r ∧
      t.hosts = s.hosts.set n h' ∧ (∀ v : VarName, bindTo = some v → h'.lookup v = some r) ∧
      (∀ v : VarName, bindTo ≠ some v → h'.lookup v = h.lookup v) ∧
      h'.script = rest ∧ h'.runs = h.runs ∧ h'.waiting = none

/-- What a host's operand becomes. For a LITERAL, spec/30_encoding.md R69: one that fits its operation's width assembles
to a word with no reserved bit set, and one that does not fit does not assemble. For an operand FORMED from responses
(R71), R61: a value of 15 bits is the operand field itself, so one that is wider than the operation's value is answered
ILLEGAL_CMD (R65). That a value of more than 15 bits, which no field holds, issues the operation with a free operand
field is the model's choice (log 8). -/
def Obligations.HostOperandBecomesCommandWord : Prop :=
  ∀ (free : Nat → Nat) (h : HostState) (op : Op) (e : HostExpr),
    (∀ x : Nat, e = .lit x →
      (x < 2 ^ op.valueWidth → ∃ i : Instr, resolveHostCmd free h (.form op e) = .ok (encode i) ∧
        i.wellFormed = true ∧ i.op = op ∧ i.operand.toNat = x) ∧
      (2 ^ op.valueWidth ≤ x → resolveHostCmd free h (.form op e) = .error (.literalDoesNotAssemble op x))) ∧
    ((∀ x : Nat, e ≠ .lit x) →
      ∃ i : Instr, resolveHostCmd free h (.form op e) = .ok (encode i) ∧ i.op = op ∧
        (operandValue free h e < 2 ^ 15 →
          i.operand.toNat = operandValue free h e ∧
          (operandValue free h e < 2 ^ op.valueWidth → decode (encode i) = .ok i) ∧
          (2 ^ op.valueWidth ≤ operandValue free h e → ∀ s : State,
            serve (encode i) s = .next { s with respPort := some ⟨.illegalCmd, 0#15, 0#3⟩ })))

/-- spec/30_encoding.md R71: a host may test `$v.status`; nothing but that host's own place in its program changes. The
rule says no more: that a test that holds goes on with the next action, and one that fails leaves out a given number
of actions, is the model's choice (log 8), and so is the one step it takes (log 2). -/
def Obligations.HostTestSelectsBranch : Prop :=
  ∀ (s : State) (n : Nat) (h : HostState) (v : VarName) (st : Status) (skip : Nat) (rest : List HostAction)
    (r : Response), s.turn = .host n → h.lookup v = some r →
    (s.NextAction n h (.test v true st skip) rest →
      step s = .next { s with
        schedule := s.schedule.tail,
        hosts := s.hosts.set n { h with
          script := if r.status = st then rest else rest.drop skip, freeCount := h.freeCount + 1 } }) ∧
    (s.NextAction n h (.test v false st skip) rest →
      step s = .next { s with
        schedule := s.schedule.tail,
        hosts := s.hosts.set n { h with
          script := if r.status = st then rest.drop skip else rest, freeCount := h.freeCount + 1 } })

/-- A step never faults (spec/60_exceptions.md R203: no traps), and it is refused only for a literal operand that does not
fit its operation's width (spec/30_encoding.md R69); so a machine whose hosts' commands assemble never stops, whatever
values their variables hold. That a host goes on with a free value where the spec states none (a formed operand of
more than 15 bits, an unbound variable) is the model's choice, which neither R69 nor R71 says (log 8), and that no command
hangs the core is R236's assumption about the hardware (log 10). -/
def Obligations.AssembledHostsNeverStop : Prop :=
  (∀ s : State, s.Assembled → ∃ t : State, step s = .next t ∧ t.Assembled) ∧
  (∀ (s : State) (e : Refusal), step s = .refused e →
    ∃ (op : Op) (x : Nat), e = .literalDoesNotAssemble op x ∧ 2 ^ op.valueWidth ≤ x) ∧
  (∀ (s : State) (e : Fault), step s ≠ .fault e)

/-- spec/30_encoding.md R69: its five examples and its `.word` line; and `ENC 0x10`, no example of R69 but its rule that
a literal that does not fit its width does not assemble. -/
def Obligations.AssemblerExamples : Prop :=
  assemble ['E', 'N', 'C', ' ', '\'', '1', '0', '1', '1', '\''] = some 0x0000B#18 ∧
  assemble ['E', 'N', 'C', 'F', ' ', '0', 'x', 'B'] = some 0x1000B#18 ∧
  assemble ['B', 'L', 'D', ' ', '\'', '0', '1', '1', '0', '0', '1', '1', '\''] = some 0x08033#18 ∧
  assemble ['D', 'E', 'C', ' ', '\'', '0', '1', '0', '0', '0', '1', '1', '\''] = some 0x28023#18 ∧
  assemble (['P', 'A', 'R', 'S', 'E', ' ', '\''] ++ ['1', '0', '1', '0', '0', '1', '1', '0'] ++
    ['0', '1', '1', '0', '1', '0', '1', '\'']) = some 0x35335#18 ∧
  assemble (['.', 'w', 'o', 'r', 'd', ' '] ++ ['0', 'x', '3', 'F', 'F', 'F', 'F']) = some 0x3FFFF#18 ∧
  assemble ['E', 'N', 'C', ' ', '0', 'x', '1', '0'] = none

/-- spec/30_encoding.md R69: a line that assembles, other than a `.word` line, gives a word with no reserved bit set. -/
def Obligations.AssembledLinesAreLegal : Prop :=
  ∀ (line : Text) (w : Word), assemble line = some w → line.takeWhile (· != ' ') ≠ ['.', 'w', 'o', 'r', 'd'] →
    ∃ i : Instr, decode w = .ok i ∧ i.wellFormed = true ∧ mnemonicOf i.op = line.takeWhile (· != ' ')

/-! ### The wire -/

/-- spec/44_wire_interface.md R182, R183: a sender run with one argument of four characters '0' or '1' ends after its one
transaction with the 15 characters of the frame and a LF on standard output, exit status 0, standard input unread. The
model's choices: the run takes exactly four steps (log 2), and its response is still on the response port afterwards
(log 1). -/
def Obligations.SenderPrintsItsFrame : Prop :=
  ∀ (s : State) (n : Nat) (h : HostState) (arg stdin : Text) (rest : List HostAction) (later : List Turn),
    s.OneTransaction n later → s.NextAction n h (.send [arg] stdin) rest →
    arg.length = 4 → (∀ c ∈ arg, c = '0' ∨ c = '1') →
    ∃ fr : Frame,
      exec (.encf ((bits 4 arg).setWidth 15)) s = .next { s with respPort := some ⟨.ok, fr, 0#3⟩ } ∧
      Host.Core.run core 4 s = .next { s with
        portHost := none, respPort := some ⟨.ok, fr, 0#3⟩, schedule := later,
        hosts := s.hosts.set n { h with
          script := rest, freeCount := h.freeCount + 1,
          runs := ⟨.sender, [arg], stdin, .ok, chars fr ++ ['\n'], 0⟩ :: h.runs } }

/-- spec/44_wire_interface.md R181, R184: any other argument list is rejected on the host's turn with no command issued:
the message (whatever it is) and a LF, exit status 0, INVALID_PAYLOAD. That this is one step is the model's choice
(log 2). -/
def Obligations.SenderRejectsInvalidPayload : Prop :=
  ∀ (s : State) (n : Nat) (h : HostState) (args : List Text) (stdin : Text) (rest : List HostAction),
    s.turn = .host n → s.NextAction n h (.send args stdin) rest →
    (¬∃ arg : Text, args = [arg] ∧ arg.length = 4 ∧ ∀ c ∈ arg, c = '0' ∨ c = '1') →
    step s = .next { s with
      schedule := s.schedule.tail,
      hosts := s.hosts.set n { h with
        script := rest, freeCount := h.freeCount + 1,
        runs := ⟨.sender, args, stdin, .invalidPayload, Config.invalidPayloadMessage ++ ['\n'], 0⟩ :: h.runs } }

/-- spec/44_wire_interface.md R188: a receiver run whose line is a frame (R186, R187: markers, 15 characters, each '0' or
'1') ends after one PARSE with the 4 characters of the payload and a LF, exit status 0; with or without a LF after the
line, and without reading what follows the first LF (R185). The model's choices: the run takes exactly four steps
(log 2), and its response is still on the response port afterwards (log 1). -/
def Obligations.ReceiverPrintsThePayload : Prop :=
  ∀ (s : State) (n : Nat) (h : HostState) (line mid more stdin : Text) (rest : List HostAction) (later : List Turn),
    s.OneTransaction n later → s.NextAction n h (.receive stdin) rest →
    line = ['1', '0', '1', '0'] ++ mid ++ ['0', '1', '0', '1'] → mid.length = 7 → (∀ c ∈ mid, c = '0' ∨ c = '1') →
    (stdin = line ++ '\n' :: more ∨ stdin = line ∧ more = []) →
    ∃ (pl : Payload) (syn : Syndrome),
      exec (.parse (bits 15 line)) s =
        .next { s with respPort := some ⟨.ok, pl.setWidth 15, syn⟩ } ∧
      Host.Core.run core 4 s = .next { s with
        portHost := none, respPort := some ⟨.ok, pl.setWidth 15, syn⟩, schedule := later,
        hosts := s.hosts.set n { h with
          script := rest, freeCount := h.freeCount + 1,
          runs := ⟨.receiver, [line], more, .ok, chars pl ++ ['\n'], 0⟩ :: h.runs } }

/-- spec/44_wire_interface.md R185, R186, R187, R189: any other candidate is InvalidFrameFormat, with or without a LF
after it: the error text and a LF (as UTF-8 the 22 bytes of R189 and 0A), exit status 0. That the model issues no PARSE
for it is its choice of the two that R189 allows (log 7), and that this is one step is its choice too (log 2). -/
def Obligations.ReceiverRejectsInvalidFrame : Prop :=
  ∀ (s : State) (n : Nat) (h : HostState) (t more stdin : Text) (rest : List HostAction),
    s.turn = .host n → s.NextAction n h (.receive stdin) rest →
    '\n' ∉ t → (stdin = t ++ '\n' :: more ∨ stdin = t ∧ more = []) →
    (¬∃ mid : Text, t = ['1', '0', '1', '0'] ++ mid ++ ['0', '1', '0', '1'] ∧ mid.length = 7 ∧
      ∀ c ∈ mid, c = '0' ∨ c = '1') →
    ∃ run : SurfaceRun,
      step s = .next { s with
        schedule := s.schedule.tail,
        hosts := s.hosts.set n { h with
          script := rest, freeCount := h.freeCount + 1, runs := run :: h.runs } } ∧
      run.surface = .receiver ∧ run.input = [t] ∧ run.unread = more ∧ run.status = .invalidFrame ∧
      run.exitStatus = 0 ∧
      run.stdoutBytes = [0x45#8, 0x72#8, 0x72#8, 0x6F#8, 0x3A#8, 0x20#8, 0x46#8, 0x72#8, 0x61#8, 0x6D#8, 0x65#8,
        0x20#8, 0x69#8, 0x6E#8, 0x76#8, 0xC3#8, 0xA1#8, 0x6C#8, 0x69#8, 0x64#8, 0x6F#8, 0x2E#8, 0x0A#8]

/-- spec/44_wire_interface.md R191: piping a sender's output into a receiver returns the sender's argument for every
valid payload, whatever states the two runs start in, and whichever hosts make them. That each run takes exactly four
steps is the model's choice (log 2). -/
def Obligations.PipedSenderAndReceiverRoundTrip : Prop :=
  ∀ (s : State) (n : Nat) (h : HostState) (arg stdin : Text) (rest : List HostAction) (later : List Turn),
    s.OneTransaction n later → s.NextAction n h (.send [arg] stdin) rest →
    arg.length = 4 → (∀ c ∈ arg, c = '0' ∨ c = '1') →
    ∃ (t : State) (h' : HostState) (run : SurfaceRun), Host.Core.run core 4 s = .next t ∧
      t.hosts[n]? = some h' ∧ h'.runs = run :: h.runs ∧
      ∀ (u : State) (m : Nat) (k : HostState) (rest' : List HostAction) (later' : List Turn),
        u.OneTransaction m later' → u.NextAction m k (.receive run.stdout) rest' →
        ∃ (u' : State) (k' : HostState) (run' : SurfaceRun), Host.Core.run core 4 u = .next u' ∧
          u'.hosts[m]? = some k' ∧ k'.runs = run' :: k.runs ∧
          run'.status = .ok ∧ run'.stdout = arg ++ ['\n']

/-- spec/44_wire_interface.md R190, its half on one inverted codeword bit: the output is the output for the error-free
frame. (Its other half is SilentlyWrongPayloadAtTheWire.) That each run takes exactly four steps is the model's choice
(log 2). -/
def Obligations.CorrectedErrorIsInvisibleAtTheWire : Prop :=
  ∀ (s u : State) (n m : Nat) (h k : HostState) (pl : Payload) (i : Nat) (rest rest' : List HostAction)
    (later later' : List Turn), 1 ≤ i → i ≤ 7 →
    s.OneTransaction n later → u.OneTransaction m later' →
    s.NextAction n h (.receive (chars (buildFrame (hammingEncode pl)) ++ ['\n'])) rest →
    u.NextAction m k (.receive (chars (buildFrame (hammingEncode pl) ^^^ 1#15 <<< (11 - i)) ++ ['\n'])) rest' →
    ∃ (s' u' : State) (h' k' : HostState) (a b : SurfaceRun),
      Host.Core.run core 4 s = .next s' ∧ s'.hosts[n]? = some h' ∧ h'.runs = a :: h.runs ∧
      Host.Core.run core 4 u = .next u' ∧ u'.hosts[m]? = some k' ∧ k'.runs = b :: k.runs ∧
      a.stdout = b.stdout ∧ a.stdout = chars pl ++ ['\n'] ∧ a.status = .ok ∧ b.status = .ok

/-- spec/44_wire_interface.md R190, its half on more inverted bits, and spec/43_syndrome_corrector.md R155: a receiver run
on the frame of a payload with two or more codeword bits inverted prints a wrong payload, with status OK and exit
status 0, as it prints a right one. That the run takes exactly four steps is the model's choice (log 2). -/
def Obligations.SilentlyWrongPayloadAtTheWire : Prop :=
  ∀ (s : State) (n : Nat) (h : HostState) (pl : Payload) (cw : Codeword) (rest : List HostAction) (later : List Turn),
    2 ≤ distance cw (hammingEncode pl) →
    s.OneTransaction n later → s.NextAction n h (.receive (chars (buildFrame cw) ++ ['\n'])) rest →
    ∃ (t : State) (h' : HostState) (run : SurfaceRun) (pl' : Payload),
      Host.Core.run core 4 s = .next t ∧ t.hosts[n]? = some h' ∧ h'.runs = run :: h.runs ∧
      run.stdout = chars pl' ++ ['\n'] ∧ pl' ≠ pl ∧ run.status = .ok ∧ run.exitStatus = 0
end

