-- ==== Sys2Proof/Laws/Codec.lean ====
section
/-! SUPPORT. The fields of an encoded word, the operation codes, and the reserved-bit tests as bounds. -/

namespace Sys2Proof

@[simp] theorem opField_encode (i : Instr) : opField (encode i) = i.op.code :=
  (BitVec.extractLsb'_append_eq_of_le (xhi := i.op.code) (xlo := i.operand) (start := 15) (len := 3)
    (by decide)).trans BitVec.extractLsb'_eq_self

@[simp] theorem operandField_encode (i : Instr) : operandField (encode i) = i.operand :=
  (BitVec.extractLsb'_append_eq_of_add_le (xhi := i.op.code) (xlo := i.operand) (start := 0) (len := 15)
    (by decide)).trans BitVec.extractLsb'_eq_self

/-- A word is its two fields. -/
theorem word_eq_fields (w : Word) : opField w ++ operandField w = w :=
  (BitVec.extractLsb'_append_extractLsb'_eq_extractLsb' (x := w) (start₂ := 15) (start₁ := 0) (len₁ := 15)
    (len₂ := 3) rfl).trans BitVec.extractLsb'_eq_self

@[simp] theorem Op.ofCode_code (op : Op) : Op.ofCode op.code = some op := by cases op <;> rfl

theorem Op.code_of_ofCode {c : BitVec 3} {op : Op} (h : Op.ofCode c = some op) : c = op.code := by
  revert c op; decide

theorem Op.ofCode_eq_none (c : BitVec 3) : Op.ofCode c = none ↔ c = 7#3 := by
  revert c; decide

@[simp] theorem Op.op_instr (op : Op) (x : Operand) : (op.instr x).op = op := by cases op <;> rfl

@[simp] theorem Op.operand_instr (op : Op) (x : Operand) : (op.instr x).operand = x := by cases op <;> rfl

@[simp] theorem Instr.instr_op_operand (i : Instr) : i.op.instr i.operand = i := by cases i <;> rfl

/-- The reserved bits of a payload operand are set exactly when the operand is no 4-bit number. -/
theorem payloadReservedSet_eq (x : Operand) : payloadReservedSet x = decide (16 ≤ x.toNat) := by
  have h : x.toNat < 2 ^ 15 := x.isLt
  rw [payloadReservedSet, Bool.eq_iff_iff]
  simp [bne_iff_ne, ← BitVec.toNat_inj, BitVec.extractLsb'_toNat, Nat.shiftRight_eq_div_pow]
  omega

/-- The reserved bits of a codeword operand are set exactly when the operand is no 7-bit number. -/
theorem codewordReservedSet_eq (x : Operand) : codewordReservedSet x = decide (128 ≤ x.toNat) := by
  have h : x.toNat < 2 ^ 15 := x.isLt
  rw [codewordReservedSet, Bool.eq_iff_iff]
  simp [bne_iff_ne, ← BitVec.toNat_inj, BitVec.extractLsb'_toNat, Nat.shiftRight_eq_div_pow]
  omega

/-- The decoder's reserved-bit test and well-formedness agree on every operation. -/
theorem reservedSet_eq_not_wellFormed (i : Instr) : i.op.reservedSet i.operand = !i.wellFormed := by
  cases i <;>
    simp [Instr.op, Instr.operand, Op.reservedSet, Instr.wellFormed, payloadReservedSet_eq,
      codewordReservedSet_eq, ← decide_not]

/-- What the decoder can answer on a word: its operation and operand, or one of the two rejections. -/
theorem decode_cases (w : Word) :
    (opField w = 7#3 ∧ decode w = .error .reservedOp) ∨
    (∃ op, opField w = op.code ∧
      ((op.reservedSet (operandField w) = true ∧ decode w = .error (.reservedOperandBits op)) ∨
       (op.reservedSet (operandField w) = false ∧ decode w = .ok (op.instr (operandField w))))) := by
  cases h : Op.ofCode (opField w) with
  | none => exact .inl ⟨(Op.ofCode_eq_none _).1 h, by simp [decode, h]⟩
  | some op =>
    refine .inr ⟨op, Op.code_of_ofCode h, ?_⟩
    cases hr : op.reservedSet (operandField w)
    · exact .inr ⟨rfl, by simp [decode, h, hr]⟩
    · exact .inl ⟨rfl, by simp [decode, h, hr]⟩

end Sys2Proof
end

