-- ==== Sys2Proof/Laws/PerInstr.lean ====
section
/-! SUPPORT. Statements made for every operation: EncodeFields, the fields of an operation's command word. -/

namespace Sys2Proof.Laws

/-- The word of an operation is its operation code times 2^15 plus its operand (spec/30_encoding.md R60, R61). -/
def EncodeFields.Statement (i : Instr) : Prop :=
  (encode i).toNat = i.op.code.toNat * 2 ^ 15 + i.operand.toNat

/-- Shared by the seven lemmas: the append of the two fields as a number. -/
theorem encode_toNat (i : Instr) : (encode i).toNat = i.op.code.toNat * 2 ^ 15 + i.operand.toNat := by
  have h : (encode i).toNat = i.op.code.toNat <<< 15 ||| i.operand.toNat :=
    BitVec.toNat_append i.op.code i.operand
  rw [h, ← Nat.shiftLeft_add_eq_or_of_lt i.operand.isLt, Nat.shiftLeft_eq]

theorem EncodeFields.enc (x : Operand) : EncodeFields.Statement (.enc x) := encode_toNat _
theorem EncodeFields.bld (x : Operand) : EncodeFields.Statement (.bld x) := encode_toNat _
theorem EncodeFields.encf (x : Operand) : EncodeFields.Statement (.encf x) := encode_toNat _
theorem EncodeFields.syn (x : Operand) : EncodeFields.Statement (.syn x) := encode_toNat _
theorem EncodeFields.cor (x : Operand) : EncodeFields.Statement (.cor x) := encode_toNat _
theorem EncodeFields.dec (x : Operand) : EncodeFields.Statement (.dec x) := encode_toNat _
theorem EncodeFields.parse (x : Operand) : EncodeFields.Statement (.parse x) := encode_toNat _

end Sys2Proof.Laws
end

