-- ==== Sys2Proof/Laws/State.lean ====
section
/-! SUPPORT. One lemma per field per named update of HostState and State: what each update of Machine/Ops.lean (and
withFetchWord) makes of each field. -/

namespace Sys2Proof.Machine

section
variable (h : HostState)

@[simp] theorem HostState.await_script (p : Pending) : (h.await p).script = h.script := rfl
@[simp] theorem HostState.await_waiting (p : Pending) : (h.await p).waiting = some p := rfl
@[simp] theorem HostState.await_vars (p : Pending) : (h.await p).vars = h.vars := rfl
@[simp] theorem HostState.await_runs (p : Pending) : (h.await p).runs = h.runs := rfl
@[simp] theorem HostState.await_freeCount (p : Pending) : (h.await p).freeCount = h.freeCount := rfl

@[simp] theorem HostState.release_script : (h.release).script = h.script := rfl
@[simp] theorem HostState.release_waiting : (h.release).waiting = none := rfl
@[simp] theorem HostState.release_vars : (h.release).vars = h.vars := rfl
@[simp] theorem HostState.release_runs : (h.release).runs = h.runs := rfl
@[simp] theorem HostState.release_freeCount : (h.release).freeCount = h.freeCount := rfl

@[simp] theorem HostState.receive_script (r : Response) : (h.receive r).script = h.script := rfl
@[simp] theorem HostState.receive_waiting (r : Response) : (h.receive r).waiting = h.waiting.map fun p => { p with response := some r } := rfl
@[simp] theorem HostState.receive_vars (r : Response) : (h.receive r).vars = h.vars := rfl
@[simp] theorem HostState.receive_runs (r : Response) : (h.receive r).runs = h.runs := rfl
@[simp] theorem HostState.receive_freeCount (r : Response) : (h.receive r).freeCount = h.freeCount := rfl

@[simp] theorem HostState.bind_script (v : VarName) (r : Response) : (h.bind v r).script = h.script := rfl
@[simp] theorem HostState.bind_waiting (v : VarName) (r : Response) : (h.bind v r).waiting = h.waiting := rfl
@[simp] theorem HostState.bind_vars (v : VarName) (r : Response) : (h.bind v r).vars = (v, r) :: h.vars.filter fun b => b.1 != v := rfl
@[simp] theorem HostState.bind_runs (v : VarName) (r : Response) : (h.bind v r).runs = h.runs := rfl
@[simp] theorem HostState.bind_freeCount (v : VarName) (r : Response) : (h.bind v r).freeCount = h.freeCount := rfl

@[simp] theorem HostState.record_script (r : SurfaceRun) : (h.record r).script = h.script := rfl
@[simp] theorem HostState.record_waiting (r : SurfaceRun) : (h.record r).waiting = h.waiting := rfl
@[simp] theorem HostState.record_vars (r : SurfaceRun) : (h.record r).vars = h.vars := rfl
@[simp] theorem HostState.record_runs (r : SurfaceRun) : (h.record r).runs = r :: h.runs := rfl
@[simp] theorem HostState.record_freeCount (r : SurfaceRun) : (h.record r).freeCount = h.freeCount := rfl

@[simp] theorem HostState.dropActions_script (n : Nat) : (h.dropActions n).script = h.script.drop n := rfl
@[simp] theorem HostState.dropActions_waiting (n : Nat) : (h.dropActions n).waiting = h.waiting := rfl
@[simp] theorem HostState.dropActions_vars (n : Nat) : (h.dropActions n).vars = h.vars := rfl
@[simp] theorem HostState.dropActions_runs (n : Nat) : (h.dropActions n).runs = h.runs := rfl
@[simp] theorem HostState.dropActions_freeCount (n : Nat) : (h.dropActions n).freeCount = h.freeCount := rfl

@[simp] theorem HostState.countFree_script : (h.countFree).script = h.script := rfl
@[simp] theorem HostState.countFree_waiting : (h.countFree).waiting = h.waiting := rfl
@[simp] theorem HostState.countFree_vars : (h.countFree).vars = h.vars := rfl
@[simp] theorem HostState.countFree_runs : (h.countFree).runs = h.runs := rfl
@[simp] theorem HostState.countFree_freeCount : (h.countFree).freeCount = h.freeCount + 1 := rfl

end

section
variable (s : State)

@[simp] theorem State.withResponse_cmdPort (r : Response) : (s.withResponse r).cmdPort = s.cmdPort := rfl
@[simp] theorem State.withResponse_portHost (r : Response) : (s.withResponse r).portHost = s.portHost := rfl
@[simp] theorem State.withResponse_respPort (r : Response) : (s.withResponse r).respPort = some r := rfl
@[simp] theorem State.withResponse_hosts (r : Response) : (s.withResponse r).hosts = s.hosts := rfl
@[simp] theorem State.withResponse_schedule (r : Response) : (s.withResponse r).schedule = s.schedule := rfl
@[simp] theorem State.withResponse_freeCount (r : Response) : (s.withResponse r).freeCount = s.freeCount := rfl

@[simp] theorem State.clearResponse_cmdPort : (s.clearResponse).cmdPort = s.cmdPort := rfl
@[simp] theorem State.clearResponse_portHost : (s.clearResponse).portHost = s.portHost := rfl
@[simp] theorem State.clearResponse_respPort : (s.clearResponse).respPort = none := rfl
@[simp] theorem State.clearResponse_hosts : (s.clearResponse).hosts = s.hosts := rfl
@[simp] theorem State.clearResponse_schedule : (s.clearResponse).schedule = s.schedule := rfl
@[simp] theorem State.clearResponse_freeCount : (s.clearResponse).freeCount = s.freeCount := rfl

@[simp] theorem State.takeCommand_cmdPort : (s.takeCommand).cmdPort = none := rfl
@[simp] theorem State.takeCommand_portHost : (s.takeCommand).portHost = none := rfl
@[simp] theorem State.takeCommand_respPort : (s.takeCommand).respPort = s.respPort := rfl
@[simp] theorem State.takeCommand_hosts : (s.takeCommand).hosts = s.hosts := rfl
@[simp] theorem State.takeCommand_schedule : (s.takeCommand).schedule = s.schedule := rfl
@[simp] theorem State.takeCommand_freeCount : (s.takeCommand).freeCount = s.freeCount := rfl

@[simp] theorem State.present_cmdPort (n : Nat) (w : Word) : (s.present n w).cmdPort = some w := rfl
@[simp] theorem State.present_portHost (n : Nat) (w : Word) : (s.present n w).portHost = some n := rfl
@[simp] theorem State.present_respPort (n : Nat) (w : Word) : (s.present n w).respPort = none := rfl
@[simp] theorem State.present_hosts (n : Nat) (w : Word) : (s.present n w).hosts = s.hosts := rfl
@[simp] theorem State.present_schedule (n : Nat) (w : Word) : (s.present n w).schedule = s.schedule := rfl
@[simp] theorem State.present_freeCount (n : Nat) (w : Word) : (s.present n w).freeCount = s.freeCount := rfl

@[simp] theorem State.setHost_cmdPort (n : Nat) (h : HostState) : (s.setHost n h).cmdPort = s.cmdPort := rfl
@[simp] theorem State.setHost_portHost (n : Nat) (h : HostState) : (s.setHost n h).portHost = s.portHost := rfl
@[simp] theorem State.setHost_respPort (n : Nat) (h : HostState) : (s.setHost n h).respPort = s.respPort := rfl
@[simp] theorem State.setHost_hosts (n : Nat) (h : HostState) : (s.setHost n h).hosts = s.hosts.set n h := rfl
@[simp] theorem State.setHost_schedule (n : Nat) (h : HostState) : (s.setHost n h).schedule = s.schedule := rfl
@[simp] theorem State.setHost_freeCount (n : Nat) (h : HostState) : (s.setHost n h).freeCount = s.freeCount := rfl

@[simp] theorem State.give_cmdPort (n : Nat) (r : Response) : (s.give n r).cmdPort = s.cmdPort := rfl
@[simp] theorem State.give_portHost (n : Nat) (r : Response) : (s.give n r).portHost = s.portHost := rfl
@[simp] theorem State.give_respPort (n : Nat) (r : Response) : (s.give n r).respPort = s.respPort := rfl
@[simp] theorem State.give_hosts (n : Nat) (r : Response) : (s.give n r).hosts = s.hosts.modify n fun h => h.receive r := rfl
@[simp] theorem State.give_schedule (n : Nat) (r : Response) : (s.give n r).schedule = s.schedule := rfl
@[simp] theorem State.give_freeCount (n : Nat) (r : Response) : (s.give n r).freeCount = s.freeCount := rfl

@[simp] theorem State.tick_cmdPort : (s.tick).cmdPort = s.cmdPort := rfl
@[simp] theorem State.tick_portHost : (s.tick).portHost = s.portHost := rfl
@[simp] theorem State.tick_respPort : (s.tick).respPort = s.respPort := rfl
@[simp] theorem State.tick_hosts : (s.tick).hosts = s.hosts := rfl
@[simp] theorem State.tick_schedule : (s.tick).schedule = s.schedule.tail := rfl
@[simp] theorem State.tick_freeCount : (s.tick).freeCount = s.freeCount := rfl

@[simp] theorem State.countFree_cmdPort : (s.countFree).cmdPort = s.cmdPort := rfl
@[simp] theorem State.countFree_portHost : (s.countFree).portHost = s.portHost := rfl
@[simp] theorem State.countFree_respPort : (s.countFree).respPort = s.respPort := rfl
@[simp] theorem State.countFree_hosts : (s.countFree).hosts = s.hosts := rfl
@[simp] theorem State.countFree_schedule : (s.countFree).schedule = s.schedule := rfl
@[simp] theorem State.countFree_freeCount : (s.countFree).freeCount = s.freeCount + 1 := rfl

@[simp] theorem State.withFetchWord_cmdPort (n w : Nat) : (s.withFetchWord n w).cmdPort = some (BitVec.ofNat 18 w) := rfl
@[simp] theorem State.withFetchWord_portHost (n w : Nat) : (s.withFetchWord n w).portHost = none := rfl
@[simp] theorem State.withFetchWord_respPort (n w : Nat) : (s.withFetchWord n w).respPort = s.respPort := rfl
@[simp] theorem State.withFetchWord_hosts (n w : Nat) : (s.withFetchWord n w).hosts = s.hosts := rfl
@[simp] theorem State.withFetchWord_schedule (n w : Nat) : (s.withFetchWord n w).schedule = .core :: s.schedule := rfl
@[simp] theorem State.withFetchWord_freeCount (n w : Nat) : (s.withFetchWord n w).freeCount = s.freeCount := rfl

end

end Sys2Proof.Machine
end

