-- ==== Sys2Proof/Laws/Transaction.lean ====
section
/-! SUPPORT. What each shared operation can do, said once: an operation places one response and does nothing else; so
does serving a command, for the host that issued it; a step is one of six cases. -/

namespace Sys2Proof.Machine

@[simp] theorem respond_eq (st : Status) (res : BitVec 15) (syn : Syndrome) (s : State) :
    respond st res syn s = .next (s.withResponse ⟨st, res, syn⟩) := rfl

@[simp] theorem raise_eq (e : Status) (s : State) :
    raise e s = .next (s.withResponse ⟨e, 0#15, 0#3⟩) := rfl

/-- Every operation places one response, the same in every state, and changes nothing else. -/
theorem exec_places_response (i : Instr) : ∃ r, ∀ s, exec i s = .next (s.withResponse r) := by
  cases i <;> simp only [exec, execEnc, execBld, execEncf, execSyn, execCor, execDec, execParse, respond_eq, raise_eq] <;>
    split <;> exact ⟨_, fun _ => rfl⟩

/-- Serving a command places the response of its word and changes nothing else. -/
theorem serve_eq (w : Word) : ∃ r, responseTo w = some r ∧ ∀ s, serve w s = .next (s.withResponse r) := by
  have h : ∃ r, ∀ s, serve w s = .next (s.withResponse r) := by
    unfold serve
    cases decode w with
    | ok i => exact exec_places_response i
    | error e => exact ⟨_, fun _ => rfl⟩
  obtain ⟨r, hr⟩ := h
  exact ⟨r, by simp [responseTo, hr], hr⟩

theorem serve_next {w : Word} {s t : State} (h : serve w s = .next t) :
    ∃ r, responseTo w = some r ∧ t = s.withResponse r := by
  obtain ⟨r, hr, hs⟩ := serve_eq w
  rw [hs, Host.Outcome.next.injEq] at h
  exact ⟨r, hr, h.symm⟩

@[simp] theorem State.deliver_none (s : State) : s.deliver none = s := by
  unfold State.deliver
  split <;> trivial

@[simp] theorem State.deliver_some (s : State) (n : Nat) (r : Response) :
    (s.withResponse r).deliver (some n) = (s.withResponse r).give n r := rfl

/-- A response reaches the host it is delivered to, if there is one, and changes nothing else. -/
theorem State.deliver_eq (s : State) (owner : Option Nat) (r : Response) :
    (s.withResponse r).deliver owner = s.withResponse r ∨
    ∃ n, owner = some n ∧ (s.withResponse r).deliver owner = (s.withResponse r).give n r := by
  cases owner with
  | none => exact .inl (State.deliver_none _)
  | some n => exact .inr ⟨n, rfl, rfl⟩

/-- Serving a command for a host places the response of its word, gives it to that host, and changes nothing else. -/
theorem serve_deliver (w : Word) : ∃ r, responseTo w = some r ∧
    ∀ owner s, deliverResult owner (serve w s) = .next ((s.withResponse r).deliver owner) := by
  obtain ⟨r, hr, hs⟩ := serve_eq w
  exact ⟨r, hr, fun owner s => by rw [hs]; rfl⟩

/-- The host's unanswered command is that of the transaction it waits on. -/
theorem HostState.unanswered_eq_some {h : HostState} {w : Word} :
    h.unanswered = some w ↔ ∃ p, h.waiting = some p ∧ p.response = none ∧ p.cmd = w := by
  unfold HostState.unanswered
  cases h.waiting with
  | none => simp
  | some p => cases hp : p.response <;> simp [hp]

/-- A host with no unanswered command has nothing outstanding, or has its response. -/
theorem HostState.unanswered_eq_none {h : HostState} :
    h.unanswered = none ↔ ∀ p, h.waiting = some p → ∃ r, p.response = some r := by
  unfold HostState.unanswered
  cases h.waiting with
  | none => simp
  | some p => cases hp : p.response <;> simp [hp]

/-- A host that has used its response waits for nothing. -/
@[simp] theorem finish_waiting (who : Client) (r : Response) (h : HostState) : (finish who r h).waiting = none := by
  rcases who with ⟨_ | _⟩ | _ | _ <;> rfl

@[simp] theorem finish_script (who : Client) (r : Response) (h : HostState) :
    (finish who r h).script = h.script := by
  rcases who with ⟨_ | _⟩ | _ | _ <;> rfl

/-- What a host makes of its response does not depend on the transaction it waited on. -/
theorem finish_with_waiting (who : Client) (r : Response) (h : HostState) (w : Option Pending) :
    finish who r { h with waiting := w } = finish who r h := by
  rcases who with ⟨_ | _⟩ | _ | _ <;> rfl

/-- The value of an operand depends on the host's variables alone. -/
theorem operandValue_of_vars (free : Nat → Nat) {h h' : HostState} (hv : h.vars = h'.vars) (e : HostExpr) :
    operandValue free h e = operandValue free h' e := by
  have (place : Nat) : evalHostExpr free h place e = evalHostExpr free h' place e := by
    induction e generalizing place <;> simp [evalHostExpr, variableResult, HostState.lookup, *]
  exact this 1

/-- An operand that is no literal issues its operation with the formed operand field. -/
theorem formCommand_formed (free : Nat) (op : Op) (x : Nat) {e : HostExpr} (he : ∀ n, e ≠ .lit n) :
    formCommand free op x e = .ok (encode (op.instr (formedOperand free x))) := by
  unfold formCommand
  split
  · exact absurd rfl (he _)
  · rfl

/-- The word of a host command depends on the host's variables alone. -/
theorem resolveHostCmd_of_vars (free : Nat → Nat) {h h' : HostState} (hv : h.vars = h'.vars) (cmd : HostCmd) :
    resolveHostCmd free h cmd = resolveHostCmd free h' cmd := by
  cases cmd with
  | raw w => rfl
  | form op e => rw [resolveHostCmd, resolveHostCmd, operandValue_of_vars free hv]

/-- On the core's turn a presented command is served. -/
theorem step_core {s : State} {w : Word} (ht : s.turn = .core) (hw : s.cmdPort = some w) :
    step s = deliverResult s.portHost (serve w s.tick.takeCommand) := by
  simp [step, ht, turnStep, coreStep, hw]

/-- What a host does by itself: nothing, use its response, or take its next action. -/
theorem hostMove_cases {n : Nat} {h h' : HostState} (hm : hostMove n h = .ok h') :
    h' = h ∨ (∃ p r, h.waiting = some p ∧ p.response = some r ∧ h' = finish p.who r h) ∨
    (h.waiting = none ∧ ∃ a rest, h.script = a :: rest ∧
      hostAct (Config.freeHostValue n h.freeCount) a (h.dropActions 1).countFree = .ok h') := by
  unfold hostMove at hm
  split at hm
  · next p hp =>
    split at hm
    · next r hr => exact .inr (.inl ⟨p, r, hp, hr, by cases hm; rfl⟩)
    · cases hm; exact .inl rfl
  · next hp =>
    split at hm
    · cases hm; exact .inl rfl
    · next a rest hs => exact .inr (.inr ⟨hp, a, rest, hs, hm⟩)

/-- Everything one step can do. -/
inductive StepCase (s : State) : State → Prop where
  /-- The core, on its turn or during a reset, answers the command on its port. -/
  | served (w : Word) (r : Response) (u : State) (hw : s.cmdPort = some w) (hr : responseTo w = some r)
      (hu : (s.turn = .core ∧ u = s.tick.takeCommand) ∨ (s.turn = .reset ∧ u = s.tick.takeCommand.countFree)) :
      StepCase s ((u.withResponse r).deliver s.portHost)
  /-- A reset ends the transaction with no response. -/
  | cut (w : Word) (hw : s.cmdPort = some w) (ht : s.turn = .reset) :
      StepCase s s.tick.takeCommand.clearResponse.countFree
  /-- A reset arrives while no command is being served. -/
  | cleared (hw : s.cmdPort = none) (ht : s.turn = .reset) : StepCase s s.tick.clearResponse
  /-- The agent whose turn it is has nothing to do, or waits for the command port. -/
  | idle : StepCase s s.tick
  /-- A host presents its unanswered command. -/
  | presented (n : Nat) (h : HostState) (w : Word) (ht : s.turn = .host n) (hh : s.hosts[n]? = some h)
      (hu : h.unanswered = some w) (hw : s.cmdPort = none) : StepCase s (s.tick.present n w)
  /-- A host moves by itself. -/
  | moved (n : Nat) (h h' : HostState) (ht : s.turn = .host n) (hh : s.hosts[n]? = some h)
      (hu : h.unanswered = none) (hm : hostMove n h = .ok h') : StepCase s (s.tick.setHost n h')

theorem step_cases {s t : State} (h : step s = .next t) : StepCase s t := by
  unfold step turnStep at h
  split at h
  · next ht =>
    simp only [coreStep, State.tick_cmdPort, State.tick_portHost] at h
    split at h
    · next w hw =>
      obtain ⟨r, hr, hs⟩ := serve_deliver w
      rw [hs] at h
      cases h
      exact .served w r _ hw hr (.inl ⟨ht, rfl⟩)
    · cases h; exact .idle
  · next ht =>
    simp only [resetStep, State.tick_cmdPort, State.tick_portHost] at h
    split at h
    · next w hw =>
      obtain ⟨r, hr, hs⟩ := serve_deliver w
      cases hc : Config.resetCutsTransaction s.tick.freeCount
      · simp only [hc, Bool.false_eq_true, if_false, hs] at h
        cases h
        exact .served w r _ hw hr (.inr ⟨ht, rfl⟩)
      · simp only [hc, if_true] at h
        cases h
        exact .cut w hw ht
    · next hw => cases h; exact .cleared hw ht
  · next n ht =>
    simp only [hostStep, State.tick_cmdPort, State.tick_hosts] at h
    split at h
    · cases h; exact .idle
    · next hs hh =>
      split at h
      · next w hu =>
        cases hw : s.cmdPort with
        | none => simp only [hw, Option.isNone_none, if_true] at h; cases h; exact .presented n hs w ht hh hu hw
        | some w' => simp only [hw, Option.isNone_some, Bool.false_eq_true, if_false] at h; cases h; exact .idle
      · next hu =>
        split at h
        · next h' hm => cases h; exact .moved n hs h' ht hh hu hm
        · cases h

/-- What each step makes of host number m: nothing, the response to its own command, or a move of its own. -/
theorem StepCase.host {s t : State} (hc : StepCase s t) (m : Nat) (h : HostState) (hh : s.hosts[m]? = some h) :
    t.hosts[m]? = some h ∨
    (∃ w r, s.portHost = some m ∧ s.cmdPort = some w ∧ responseTo w = some r ∧
      t.hosts[m]? = some (h.receive r)) ∨
    (∃ h', s.turn = .host m ∧ h.unanswered = none ∧ hostMove m h = .ok h' ∧ t.hosts[m]? = some h') := by
  cases hc with
  | served w r u hw hr hu =>
    have hu' : u.hosts = s.hosts := by rcases hu with ⟨-, rfl⟩ | ⟨-, rfl⟩ <;> rfl
    rcases State.deliver_eq u s.portHost r with he | ⟨n, hn, he⟩
    · exact .inl (by rw [he]; simpa [hu'] using hh)
    · rw [he]
      simp only [State.give_hosts, State.withResponse_hosts, hu', List.getElem?_modify, hh]
      by_cases hnm : n = m
      · subst hnm; exact .inr (.inl ⟨w, r, hn, hw, hr, by simp⟩)
      · exact .inl (by simp [hnm])
  | cut w hw ht => exact .inl hh
  | cleared hw ht => exact .inl hh
  | idle => exact .inl hh
  | presented n h w ht hh' hu hw => exact .inl hh
  | moved n h₀ h' ht hh' hu hm =>
    by_cases hnm : n = m
    · subst hnm
      cases hh.symm.trans hh'
      refine .inr (.inr ⟨h', ht, hu, hm, ?_⟩)
      exact List.getElem?_set_self (List.getElem?_eq_some_iff.1 hh).1
    · exact .inl (by simpa [List.getElem?_set, hnm] using hh)

/-- No step adds or removes a host. -/
theorem StepCase.hosts_length {s t : State} (hc : StepCase s t) : t.hosts.length = s.hosts.length := by
  cases hc with
  | served w r u hw hr hu =>
    have hu' : u.hosts = s.hosts := by rcases hu with ⟨-, rfl⟩ | ⟨-, rfl⟩ <;> rfl
    rcases State.deliver_eq u s.portHost r with he | ⟨n, hn, he⟩ <;> rw [he] <;> simp [hu']
  | moved n h h' ht hh hu hm => exact List.length_set ..
  | cut w hw ht => rfl
  | cleared hw ht => rfl
  | idle => rfl
  | presented n h w ht hh hu hw => rfl

/-- A property of every host is kept by every step if a response to its own command and a move of its own keep it. -/
theorem StepCase.all_hosts {s t : State} {P : HostState → Prop} (hc : StepCase s t) (hP : ∀ h ∈ s.hosts, P h)
    (hreceive : ∀ m h w r, s.portHost = some m → s.cmdPort = some w → s.hosts[m]? = some h → responseTo w = some r →
      P h → P (h.receive r))
    (hmove : ∀ m h h', hostMove m h = .ok h' → P h → P h') : ∀ h ∈ t.hosts, P h := by
  intro h' hh'
  obtain ⟨m, hm⟩ := List.mem_iff_getElem?.1 hh'
  have hlt : m < s.hosts.length := hc.hosts_length ▸ (List.getElem?_eq_some_iff.1 hm).1
  have hs : s.hosts[m]? = some s.hosts[m] := List.getElem?_eq_getElem hlt
  have hPm : P s.hosts[m] := hP _ (List.getElem_mem hlt)
  rcases hc.host m _ hs with ht | ⟨w, r, hp, hw, hr, ht⟩ | ⟨h₁, -, -, hmv, ht⟩ <;> rw [hm] at ht <;> cases ht
  · exact hPm
  · exact hreceive m _ w r hp hw hs hr hPm
  · exact hmove m _ _ hmv hPm

end Sys2Proof.Machine
end

