-- ==== Sys2Proof/Laws/Wire.lean ====
section
/-! SUPPORT. The surfaces: what an action of a host can do, and the bit strings of the wire. -/

namespace Sys2Proof.Machine

theorem chars_length {n : Nat} (v : BitVec n) : (chars v).length = n := by simp [chars]

/-- A bit string holds wire characters only. -/
theorem chars_wire {n : Nat} (v : BitVec n) : ∀ c ∈ chars v, c = '0' ∨ c = '1' := by
  intro c hc
  obtain ⟨k, -, rfl⟩ := List.mem_map.1 hc
  split
  · exact .inr rfl
  · exact .inl rfl

/-- Writing a payload out and reading it back gives the payload. -/
theorem bits_chars_payload (pl : Payload) : bits 4 (chars pl) = pl := by revert pl; decide

/-- A text of n wire characters is the bit string of an n-bit vector. -/
theorem exists_chars_eq {n : Nat} (t : Text) (hn : t.length = n) (h : ∀ c ∈ t, c = '0' ∨ c = '1') :
    ∃ v : BitVec n, t = chars v := by
  refine ⟨BitVec.ofFnLE fun k : Fin n => t[n - 1 - k]? == some '1', ?_⟩
  apply List.ext_getElem (by simp [chars, hn])
  intro i h1 h2
  have hi : i < n := by omega
  have hk : n - 1 - (n - 1 - i) = i := by omega
  simp [chars, BitVec.getLsbD_ofFnLE, hk, h1]
  rcases h _ (List.getElem_mem h1) with h | h <;> simp [h]; omega

/-- Seven wire characters between the markers are the candidate of a frame. -/
theorem receiverFrame_of_wire (mid : Text) (hl : mid.length = 7) (hm : ∀ c ∈ mid, c = '0' ∨ c = '1') :
    ∃ cw : Codeword, mid = chars cw ∧
      receiverFrame (headerChars ++ mid ++ terminatorChars) = some (buildFrame cw) := by
  obtain ⟨cw, rfl⟩ := exists_chars_eq mid hl hm
  refine ⟨cw, rfl, ?_⟩
  clear hl hm
  revert cw; decide

/-- Only seven wire characters between the markers are the candidate of a frame. -/
theorem receiverFrame_shape {t : Text} {fr : Frame} (h : receiverFrame t = some fr) :
    ∃ mid, t = headerChars ++ mid ++ terminatorChars ∧ mid.length = 7 ∧ ∀ c ∈ mid, c = '0' ∨ c = '1' := by
  simp only [receiverFrame, candidateMarkersOk, candidateShapeOk, Bool.and_eq_true,
    Option.ite_none_right_eq_some] at h
  obtain ⟨⟨⟨h1, h2⟩, h3, h4⟩, -⟩ := h
  obtain ⟨a, rfl⟩ := List.isPrefixOf_iff_prefix.1 h1
  have ha : a.length = 11 := by simpa [headerChars] using h3
  obtain ⟨mid, rfl⟩ : terminatorChars <:+ a :=
    List.suffix_of_suffix_length_le (List.isSuffixOf_iff_suffix.1 h2) (List.suffix_append _ _)
      (by simp [ha, terminatorChars])
  have hm : mid.length = 7 := by simp [terminatorChars] at ha; omega
  have h47 : List.take 7 (List.drop 4 (headerChars ++ (mid ++ terminatorChars))) = mid := by
    simp [headerChars, ← hm]
  rw [h47] at h4
  exact ⟨mid, by simp, hm, by simpa [isBitChar] using h4⟩

/-- Whatever action a host takes, it leaves out actions, waits on a command faithful to its input and not yet answered,
or records a finished run that is correct. -/
theorem hostAct_cases {free : Nat → Nat} {a : HostAction} {h h' : HostState} (ha : hostAct free a h = .ok h') :
    h' = h ∨ (∃ n, h' = h.dropActions n) ∨
    (∃ p : Pending, h' = h.await p ∧ p.response = none ∧ p.Faithful) ∨
    (∃ run : SurfaceRun, h' = h.record run ∧ run.Correct) := by
  cases a with
  | issue bindTo cmd =>
    simp only [hostAct, hostIssue] at ha
    split at ha
    · cases ha
      exact .inr (.inr (.inl ⟨_, rfl, rfl, trivial⟩))
    · cases ha
  | test v equal status skip =>
    simp only [hostAct, hostTest] at ha
    cases ha
    split
    · exact .inl rfl
    · exact .inr (.inl ⟨skip, rfl⟩)
  | jump skip => exact .inr (.inl ⟨skip, by cases ha; rfl⟩)
  | send args stdin =>
    simp only [hostAct, senderStart] at ha
    cases ha
    split
    · next pl hpl => exact .inr (.inr (.inl ⟨_, rfl, rfl, pl, hpl, rfl⟩))
    · next hpl => exact .inr (.inr (.inr ⟨_, rfl, rfl, by simp [senderReport, hpl]⟩))
  | receive stdin =>
    simp only [hostAct, receiverStart] at ha
    cases ha
    split
    · next fr hfr => exact .inr (.inr (.inl ⟨_, rfl, rfl, fr, hfr, rfl⟩))
    · next hfr => exact .inr (.inr (.inr ⟨_, rfl, rfl, _, rfl, by simp [receiverReport, hfr]⟩))

end Sys2Proof.Machine
end

