-- ==== Sys2Proof/Tests/Slice0.lean ====
section
/-! SUPPORT. Tests: expected results are the spec's own vectors (spec/95_test_vectors.md) and encodings
(spec/30_encoding.md); and, for every statement with hypotheses, a witness that meets them together. -/

namespace Sys2Proof.Tests

open Sys2Proof Sys2Proof.Machine

/-- A state whose command port carries a word. -/
def presented (w : Word) : State := { State.reset with cmdPort := some w }

/-- A host with one action to take. -/
def doer (a : HostAction) : HostState := { HostState.fresh with script := [a] }

/-- One host with one action to take and the core to itself for one transaction. -/
def doing (a : HostAction) : State :=
  { State.reset with hosts := [doer a], schedule := [.host 0, .host 0, .core, .host 0] }

/-- The response port after a step. -/
def answer (x : Result) : Option Response :=
  match x with
  | .next t => t.respPort
  | .fault _ => none
  | .refused _ => none

/-- The finished surface runs after some steps. -/
def runsAfter (n : Nat) (s : State) : List SurfaceRun :=
  match Host.Core.run core n s with
  | .next (t : State) => t.hosts.flatMap (·.runs)
  | .fault _ => []
  | .refused _ => []

/-! ### WellFormed: an ill-formed term for each check is refused, its neighbour accepted -/

theorem test_wellFormed_enc : (Instr.enc 16#15).wellFormed = false ∧ (Instr.enc 15#15).wellFormed = true := by decide
theorem test_wellFormed_encf : (Instr.encf 0x4000#15).wellFormed = false ∧ (Instr.encf 15#15).wellFormed = true := by
  decide
theorem test_wellFormed_bld : (Instr.bld 128#15).wellFormed = false ∧ (Instr.bld 127#15).wellFormed = true := by decide
theorem test_wellFormed_syn : (Instr.syn 128#15).wellFormed = false ∧ (Instr.syn 127#15).wellFormed = true := by decide
theorem test_wellFormed_cor : (Instr.cor 128#15).wellFormed = false ∧ (Instr.cor 127#15).wellFormed = true := by decide
theorem test_wellFormed_dec : (Instr.dec 128#15).wellFormed = false ∧ (Instr.dec 127#15).wellFormed = true := by decide
theorem test_wellFormed_parse : (Instr.parse 0x7FFF#15).wellFormed = true := by decide

/-! ### Decoding: words written out from the patterns of spec/30_encoding.md R66 -/

theorem test_decode_enc : decode 0b000_00000000000_1011#18 = .ok (.enc 0b1011#15) := by rfl
theorem test_decode_bld : decode 0b001_00000000_0110011#18 = .ok (.bld 0b0110011#15) := by rfl
theorem test_decode_encf : decode 0b010_00000000000_1011#18 = .ok (.encf 0b1011#15) := by rfl
theorem test_decode_syn : decode 0b011_00000000_0100011#18 = .ok (.syn 0b0100011#15) := by rfl
theorem test_decode_cor : decode 0b100_00000000_0100011#18 = .ok (.cor 0b0100011#15) := by rfl
theorem test_decode_dec : decode 0b101_00000000_0100011#18 = .ok (.dec 0b0100011#15) := by rfl
theorem test_decode_parse : decode 0b110_101001100110101#18 = .ok (.parse 0b101001100110101#15) := by rfl
theorem test_decode_reserved_op : decode 0x3FFFF#18 = .error .reservedOp := by rfl
theorem test_decode_reserved_bit : decode 0x00010#18 = .error (.reservedOperandBits .enc) := by rfl
theorem test_decodeTableWord : decodeTableWord 24 0x35335 = some (.parse 0x5335#15) ∧ decodeTableWord 24 0x40000 = none := by
  decide
theorem test_encode : encode (.dec 0x23#15) = 0x28023#18 := by decide

/-! ### One step per operation: the vectors of spec/95_test_vectors.md -/

theorem test_enc : answer (step (presented 0x0000B#18)) = some ⟨.ok, 0x0033#15, 0#3⟩ := by decide
theorem test_enc_reserved_bit : answer (step (presented 0x00010#18)) = some ⟨.illegalCmd, 0#15, 0#3⟩ := by decide
theorem test_bld : answer (step (presented 0x08023#18)) = some ⟨.ok, 0x5235#15, 0#3⟩ := by decide
theorem test_bld_not_a_codeword : answer (step (presented 0x08001#18)) = some ⟨.ok, 0x5015#15, 0#3⟩ := by decide
theorem test_encf : answer (step (presented 0x1000B#18)) = some ⟨.ok, 0x5335#15, 0#3⟩ := by decide
theorem test_syn : answer (step (presented 0x18023#18)) = some ⟨.ok, 3#15, 3#3⟩ := by decide
theorem test_syn_lone_d4 : answer (step (presented 0x18001#18)) = some ⟨.ok, 7#15, 7#3⟩ := by decide
theorem test_cor_parity_flip : answer (step (presented 0x20073#18)) = some ⟨.ok, 0x33#15, 1#3⟩ := by decide
theorem test_cor_two_flips : answer (step (presented 0x20053#18)) = some ⟨.ok, 0x43#15, 3#3⟩ := by decide
theorem test_dec : answer (step (presented 0x28032#18)) = some ⟨.ok, 0xB#15, 7#3⟩ := by decide
theorem test_dec_clean : answer (step (presented 0x2804C#18)) = some ⟨.ok, 0x4#15, 0#3⟩ := by decide
theorem test_parse_corrects : answer (step (presented 0x353B5#18)) = some ⟨.ok, 0xB#15, 4#3⟩ := by decide
theorem test_parse_marker_flip : answer (step (presented 0x35337#18)) = some ⟨.invalidFrame, 0#15, 0#3⟩ := by decide
theorem test_reserved_op : answer (step (presented 0x3D335#18)) = some ⟨.illegalCmd, 0#15, 0#3⟩ := by decide
theorem test_injected_word :
    answer (step (State.reset.withFetchWord 24 0x28023)) = some ⟨.ok, 0xB#15, 3#3⟩ := by decide

/-! ### The surfaces (spec/95_test_vectors.md, section 2.6) and the assembler (spec/30_encoding.md R69) -/

/-- The frame of `1011`: "101001100110101". -/
def frameText : Text := ['1', '0', '1', '0', '0', '1', '1', '0', '0', '1', '1', '0', '1', '0', '1']

theorem test_sender :
    runsAfter 4 (doing (.send [['1', '0', '1', '1']] [])) =
      [⟨.sender, [['1', '0', '1', '1']], [], .ok, frameText ++ ['\n'], 0⟩] := by decide
theorem test_sender_bad_character :
    runsAfter 1 (doing (.send [['1', '0', 'a', '1']] [])) =
      [⟨.sender, [['1', '0', 'a', '1']], [], .invalidPayload, Config.invalidPayloadMessage ++ ['\n'], 0⟩] := by rfl
theorem test_receiver :
    runsAfter 4 (doing (.receive (frameText ++ ['\n', 'x']))) =
      [⟨.receiver, [frameText], ['x'], .ok, ['1', '0', '1', '1', '\n'], 0⟩] := by decide
theorem test_receiver_overlapping_markers :
    (runsAfter 1 (doing (.receive ['1', '0', '1', '0', '1', '0', '1']))).map (·.status) = [.invalidFrame] := by decide
theorem test_receiver_keeps_cr :
    (runsAfter 1 (doing (.receive (frameText ++ ['\r', '\n'])))).map (·.status) = [.invalidFrame] := by decide
theorem test_invalidFrameText :
    invalidFrameText.length = 21 ∧
    utf8 invalidFrameText = [0x45#8, 0x72#8, 0x72#8, 0x6F#8, 0x3A#8, 0x20#8, 0x46#8, 0x72#8, 0x61#8, 0x6D#8, 0x65#8] ++
      [0x20#8, 0x69#8, 0x6E#8, 0x76#8, 0xC3#8, 0xA1#8, 0x6C#8, 0x69#8, 0x64#8, 0x6F#8, 0x2E#8] := by decide
theorem test_assemble_parse :
    assemble (['P', 'A', 'R', 'S', 'E', ' ', '\''] ++ frameText ++ ['\'']) = some 0x35335#18 := by rfl
theorem test_assemble_too_wide : assemble ['B', 'L', 'D', ' ', '0', 'x', '8', '0'] = none := by rfl

/-- A host that holds one response in the variable $f. -/
def holding (r : Response) : HostState := { HostState.fresh with vars := [(['f'], r)] }

/-- Program P4 of spec/95_test_vectors.md, section 3.4: `DEC ($k.res ^ 0x7F)` with `$k.res = 0x33`. -/
theorem test_host_operand :
    resolveHostCmd (Config.freeHostValue 0 0) (holding ⟨.ok, 0x33#15, 3#3⟩)
      (.form .dec (.xor (.res ['f']) (.lit 0x7F))) = .ok 0x2804C#18 := by rfl

/-- `~` of one bit (spec/00_scope.md R12). -/
theorem test_host_inverse (free : Nat → Nat) :
    operandValue free (holding ⟨.ok, 1#15, 0#3⟩) (.inv (.res ['f'])) = 0 := by rfl

/-- `~` of a wider value is free (log 8). -/
theorem test_host_inverse_of_wider_value (free : Nat → Nat) :
    operandValue free (holding ⟨.ok, 2#15, 0#3⟩) (.inv (.res ['f'])) = free 1 := by rfl

/-- `DEC $f.res` with `$f.res = 0x5335` is the word 0x2D335 (spec/30_encoding.md R61): reserved bits are set (R65). -/
theorem test_host_formed_operand_sets_reserved_bits :
    resolveHostCmd (Config.freeHostValue 0 0) (holding ⟨.ok, 0x5335#15, 0#3⟩) (.form .dec (.res ['f'])) =
      .ok 0x2D335#18 ∧
    decode 0x2D335#18 = .error (.reservedOperandBits .dec) := ⟨rfl, rfl⟩

/-- A formed value of more than 15 bits still issues its operation, with a free operand field (log 8). -/
theorem test_host_formed_operand_beyond_the_field :
    resolveHostCmd (Config.freeHostValue 0 0) .fresh (.form .dec (.pow2 (.lit 15))) =
      .ok (encode (.dec (BitVec.ofNat 15 (Config.freeHostValue 0 0 0)))) := by rfl

/-- A host that waits, unanswered, on a word. -/
def waiter (w : Word) (who : Client) : HostState :=
  { HostState.fresh with waiting := some { cmd := w, who := who, response := none } }

/-- Two hosts at once (spec/60_exceptions.md R211): ENC 0xB for host 0, DEC 0x23 for host 1. -/
def twoHosts (turns : List Turn) : State :=
  { State.reset with
    hosts := [waiter 0x0000B#18 (.host (some ['a'])), waiter 0x28023#18 (.host (some ['b']))], schedule := turns }

/-- What each host's variable holds after some steps. -/
def boundAfter (n : Nat) (s : State) : List (List (VarName × Response)) :=
  match Host.Core.run core n s with
  | .next (t : State) => t.hosts.map (·.vars)
  | .fault _ => []
  | .refused _ => []

theorem test_concurrent_hosts :
    boundAfter 7 (twoHosts [.host 1, .host 0, .core, .host 0, .core, .host 0, .host 1]) =
      [[(['a'], ⟨.ok, 0x33#15, 0#3⟩)], [(['b'], ⟨.ok, 0xB#15, 3#3⟩)]] := by decide

/-- A word placed from outside takes the place of host 0's ENC: host 0 issues it again and gets its own response. -/
theorem test_injected_word_is_not_the_hosts :
    let s := { twoHosts [.host 0, .core, .host 0] with cmdPort := some 0x0000B#18, portHost := some 0 }
    boundAfter 4 (s.withFetchWord 24 0x38000) = [[(['a'], ⟨.ok, 0x33#15, 0#3⟩)], []] := by decide

/-! ### Witnesses: the hypotheses of each statement, met together -/

theorem witness_DecodeOfEncodeIsInstruction :
    (Instr.dec 0x7F#15).wellFormed = true ∧ (Instr.dec 0x80#15).wellFormed = false := by decide

theorem witness_EncodeOfDecodeIsWord : decode 0x35335#18 = .ok (.parse 0x5335#15) := by rfl

theorem witness_ReservedOperationIsIllegal :
    (presented 0x3800B#18).turn = .core ∧
    (presented 0x3800B#18).cmdPort = some ((7#3 ++ 0xB#15 : BitVec 18)) := by decide

theorem witness_ReservedOperandBitsAreIllegal_payload :
    (presented 0x00010#18).turn = .core ∧ (presented 0x00010#18).cmdPort = some ((0#3 ++ 0x10#15 : BitVec 18)) ∧
    (0x10#15).extractLsb' 4 11 ≠ 0#11 := by decide

theorem witness_ReservedOperandBitsAreIllegal_codeword :
    (presented 0x18100#18).turn = .core ∧ (presented 0x18100#18).cmdPort = some ((3#3 ++ 0x100#15 : BitVec 18)) ∧
    (0x100#15).extractLsb' 7 8 ≠ 0#8 := by decide

theorem witness_ReservedOperandBitsAreIllegal_parse :
    (presented 0x37FFF#18).turn = .core ∧
    (presented 0x37FFF#18).cmdPort = some ((6#3 ++ 0x7FFF#15 : BitVec 18)) := by decide

theorem witness_StepRunsDecodedOperation :
    (presented 0x0000B#18).turn = .core ∧ (presented 0x0000B#18).cmdPort = some 0x0000B#18 ∧
    decode 0x0000B#18 = .ok (.enc 0xB#15) := ⟨rfl, rfl, rfl⟩

theorem witness_InjectedWordRunsNext : decodeTableWord 24 0x28023 = some (.dec 0x23#15) := by decide

/-- The least operands with a reserved bit, and the greatest. -/
theorem witness_reserved_operands : 16 ≤ (16#15).toNat ∧ 128 ≤ (128#15).toNat ∧ 128 ≤ (0x7FFF#15).toNat := by decide

theorem witness_positions_of_CorAnswersCorrectedCodeword : (1 ≤ 1 ∧ 1 ≤ 7) ∧ (1 ≤ 7 ∧ 7 ≤ 7) := by decide

theorem witness_DecAnswersPayload_clean : ∃ (cw : Codeword) (s t : State) (r : Response),
    exec (.syn (cw.setWidth 15)) s = .next t ∧ t.respPort = some r ∧ r.syn = 0#3 :=
  ⟨0x33#7, State.reset, _, _, rfl, rfl, rfl⟩

theorem witness_ParseAnswersPayloadOrInvalidFrame :
    ((0x5335#15).extractLsb' 11 4 = 0b1010#4 ∧ (0x5335#15).extractLsb' 0 4 = 0b0101#4) ∧
    ¬((0x5337#15).extractLsb' 11 4 = 0b1010#4 ∧ (0x5337#15).extractLsb' 0 4 = 0b0101#4) := by decide

theorem witness_EncodingTableHolds : (0xB, 0x33, 0x5335) ∈ codeTable := by decide

/-- An accepted ENC and an illegal one, the two clauses. -/
theorem witness_EncfEqualsBldAfterEnc :
    exec (.enc 0xB#15) State.reset = .next { State.reset with respPort := some ⟨.ok, 0x33#15, 0#3⟩ } ∧
    exec (.enc 0x10#15) State.reset = .next { State.reset with respPort := some ⟨.illegalCmd, 0#15, 0#3⟩ } :=
  ⟨rfl, rfl⟩

/-- An accepted ENC, as CodewordsHaveZeroSyndrome assumes it. -/
theorem witness_CodewordsHaveZeroSyndrome : ∃ (s' : State) (r : Response),
    exec (.enc 0xF#15) State.reset = .next s' ∧ s'.respPort = some r ∧ r.status = .ok := ⟨_, _, rfl, rfl, rfl⟩

/-- The first and the last position, for SyndromeNamesFlippedPosition and SingleErrorIsCorrected. -/
theorem witness_positions : (1 ≤ 1 ∧ 1 ≤ 7) ∧ (1 ≤ 7 ∧ 7 ≤ 7) ∧ (0x33#7 ^^^ 1#7 <<< (7 - 1)) = 0x73#7 ∧
    (0x33#7 ^^^ 1#7 <<< (7 - 7)) = 0x32#7 := by decide

theorem witness_MultipleErrorsAreSilentlyWrong :
    2 ≤ distance 0x53#7 (hammingEncode 0xB#4) ∧ (1 ≤ 1 ∧ 1 < 2 ∧ 2 ≤ 7) ∧ (1 ≤ 6 ∧ 6 < 7 ∧ 7 ≤ 7) := by decide

theorem witness_ParseInvertsEncf : ∃ (s' : State) (r : Response),
    exec (.encf 0xB#15) State.reset = .next s' ∧ s'.respPort = some r ∧ r.status = .ok ∧ 1 ≤ 7 ∧ 7 ≤ 7 :=
  ⟨_, _, rfl, rfl, rfl, by decide, by decide⟩

theorem witness_OneFlippedMarkerBitInvalidates : ∃ (s' : State) (r : Response),
    exec (.parse 0x5335#15) State.reset = .next s' ∧ s'.respPort = some r ∧ r.status = .ok ∧
    (0 < 4 ∨ 11 ≤ 0 ∧ 0 < 15) ∧ (11 < 4 ∨ 11 ≤ 11 ∧ 11 < 15) ∧ (14 < 4 ∨ 11 ≤ 14 ∧ 14 < 15) :=
  ⟨_, _, rfl, rfl, rfl, by decide, by decide, by decide⟩

/-- Two different states that present the same word; also for EveryCommandIsAnsweredInOneStep. -/
theorem witness_ResponseDependsOnCommandAlone :
    let s := presented 0x28023#18
    let t := { presented 0x28023#18 with respPort := some ⟨.illegalCmd, 0#15, 0#3⟩, freeCount := 5 }
    s.turn = .core ∧ t.turn = .core ∧ s.cmdPort = some 0x28023#18 ∧ t.cmdPort = some 0x28023#18 ∧ s ≠ t := by
  decide

/-- Host 1 has presented its word and waits, and host 0 waits for the port. -/
def portTaken (turns : List Turn) : State :=
  { twoHosts turns with cmdPort := some 0x28023#18, portHost := some 1 }

theorem portTaken_paired (turns : List Turn) : (portTaken turns).Paired where
  port n w hn hw := by
    cases hn
    cases hw
    exact ⟨_, _, rfl, rfl, rfl, rfl⟩
  answered h hh p hp := by
    simp only [portTaken, twoHosts, List.mem_cons, List.not_mem_nil, or_false] at hh
    rcases hh with rfl | rfl <;> cases hp <;> exact .inl rfl

theorem portTaken_assembled (turns : List Turn) : (portTaken turns).Assembled := by
  intro h hh a ha
  simp only [portTaken, twoHosts, List.mem_cons, List.not_mem_nil, or_false] at hh
  rcases hh with rfl | rfl <;> cases ha

theorem portTaken_legal (turns : List Turn) : (portTaken turns).ResponsesLegal := by
  refine ⟨fun r hr => (nomatch hr), ?_⟩
  intro h hh
  simp only [portTaken, twoHosts, List.mem_cons, List.not_mem_nil, or_false] at hh
  rcases hh with rfl | rfl
  all_goals
    constructor
    · intro v r hv
      cases hv
    · intro p r hp hr
      cases hp
      cases hr

theorem portTaken_surfaces (turns : List Turn) : (portTaken turns).SurfacesCorrect where
  paired := portTaken_paired turns
  hosts h hh := by
    simp only [portTaken, twoHosts, List.mem_cons, List.not_mem_nil, or_false] at hh
    rcases hh with rfl | rfl
    all_goals
      constructor
      · intro p hp
        cases hp
        trivial
      · intro r hr
        cases hr

/-- The invariants hold in a state with two waiting hosts, whose next step is a next state; also for
ResponseGoesToItsHostAlone, HostsDoNotInterfere and the first clause of AssembledHostsNeverStop. -/
theorem witness_StepKeepsInvariants : ∃ t : State,
    (portTaken [.core]).ResponsesLegal ∧ (portTaken [.core]).Paired ∧ (portTaken [.core]).SurfacesCorrect ∧
    (portTaken [.core]).Assembled ∧ (portTaken [.core]).turn = .core ∧
    (portTaken [.core]).cmdPort = some 0x28023#18 ∧ (portTaken [.core]).portHost = some 1 ∧
    (portTaken [.core]).hosts[1]? = some (waiter 0x28023#18 (.host (some ['b']))) ∧
    step (portTaken [.core]) = .next t :=
  ⟨_, portTaken_legal _, portTaken_paired _, portTaken_surfaces _, portTaken_assembled _, rfl, rfl, rfl, rfl, rfl⟩

/-- A word from outside the model, with hosts waiting. -/
theorem witness_ResponseGoesToItsHostAlone_outside :
    let s := { portTaken [.core] with portHost := none }
    s.Paired ∧ s.turn = .core ∧ s.cmdPort = some 0x28023#18 ∧ s.portHost = none :=
  ⟨⟨fun _ _ hn => (nomatch hn), (portTaken_paired [.core]).answered⟩, rfl, rfl, rfl⟩

theorem witness_ResetCutsOrFinishesTransaction :
    let s := portTaken [.reset]
    let u := twoHosts [.host 1, .core]
    (s.turn = .reset ∧ s.cmdPort = some 0x28023#18) ∧
    (u.schedule = .host 1 :: .core :: [] ∧ u.hosts[1]? = some (waiter 0x28023#18 (.host (some ['b']))) ∧
      (waiter 0x28023#18 (.host (some ['b']))).unanswered = some 0x28023#18 ∧ u.cmdPort = none) := by decide

theorem witness_ResetBetweenTransactionsClearsPort :
    let s := { State.reset with schedule := [.reset], respPort := some ⟨.ok, 1#15, 0#3⟩ }
    s.turn = .reset ∧ s.cmdPort = none := by decide

/-- Host 0 waits while host 1's command stands on the port and two resets arrive. -/
theorem witness_EveryClientIsAnswered :
    let s := portTaken ([.reset, .host 0, .reset] ++ [.core, .host 0, .core, .host 0])
    s.Paired ∧ s.Assembled ∧ s.hosts[0]? = some (waiter 0x0000B#18 (.host (some ['a']))) ∧
    s.schedule = [.reset, .host 0, .reset] ++ [.core, .host 0, .core, .host 0] ++ [] :=
  ⟨portTaken_paired _, portTaken_assembled _, rfl, rfl⟩

theorem witness_ConcurrentHostsGetTheirOwnResponses :
    let s := twoHosts [.host 0, .host 1, .core, .host 1, .core, .host 0, .host 1]
    0 ≠ 1 ∧ s.cmdPort = none ∧ s.hosts[0]? = some (waiter 0x0000B#18 (.host (some ['a']))) ∧
    s.hosts[1]? = some (waiter 0x28023#18 (.host (some ['b']))) ∧
    s.schedule = [.host 0, .host 1, .core, .host 1, .core, .host 0, .host 1] ++ [] := by decide

/-- What `doing a` meets of the hypotheses that statements about a host's action share. -/
theorem doing_meets (a : HostAction) :
    (doing a).turn = .host 0 ∧ (doing a).OneTransaction 0 [] ∧ (doing a).NextAction 0 (doer a) a [] :=
  ⟨rfl, ⟨rfl, rfl⟩, ⟨rfl, rfl, rfl⟩⟩

/-- A command bound to a variable, and one bound to none. -/
theorem witness_HostCommandBindsItsResponse :
    let cmd := HostCmd.form .enc (.lit 0xB)
    (∀ bindTo : Option VarName, (doing (.issue bindTo cmd)).OneTransaction 0 [] ∧
      (doing (.issue bindTo cmd)).NextAction 0 (doer (.issue bindTo cmd)) (.issue bindTo cmd) []) ∧
    resolveHostCmd (Config.freeHostValue 0 0) (doer (.issue none cmd)) cmd = .ok 0x0000B#18 ∧
    resolveHostCmd (Config.freeHostValue 0 0) (doer (.issue (some ['c']) cmd)) cmd = .ok 0x0000B#18 :=
  ⟨fun _ => ⟨(doing_meets _).2.1, (doing_meets _).2.2⟩, rfl, rfl⟩

/-- Boundary values of each clause: the literals 15 and 16 for ENC; the formed values 15, 16, 2^15 - 1 and 2^15. -/
theorem witness_HostOperandBecomesCommandWord (free : Nat → Nat) :
    15 < 2 ^ Op.enc.valueWidth ∧ 2 ^ Op.enc.valueWidth ≤ 16 ∧
    operandValue free .fresh (.add (.lit 14) (.lit 1)) = 15 ∧
    operandValue free .fresh (.add (.lit 15) (.lit 1)) = 16 ∧
    operandValue free .fresh (.add (.lit 32766) (.lit 1)) = 2 ^ 15 - 1 ∧
    operandValue free .fresh (.add (.lit 32767) (.lit 1)) = 2 ^ 15 ∧
    ∀ a b x : Nat, HostExpr.add (.lit a) (.lit b) ≠ .lit x :=
  ⟨by decide, by decide, by show 14 + 1 = 15; decide, by show 15 + 1 = 16; decide, by show 32766 + 1 = 32767; decide,
    by show 32767 + 1 = 32768; decide, fun _ _ _ h => (nomatch h)⟩

/-- A host that tests the status of $f, which holds INVALID_FRAME. -/
def tester (equal : Bool) : HostState :=
  { holding ⟨.invalidFrame, 0#15, 0#3⟩ with script := [.test ['f'] equal .ok 1] }

theorem witness_HostTestSelectsBranch (equal : Bool) :
    let s := { State.reset with hosts := [tester equal] }
    s.turn = .host 0 ∧ (tester equal).lookup ['f'] = some ⟨.invalidFrame, 0#15, 0#3⟩ ∧
    s.NextAction 0 (tester equal) (.test ['f'] equal .ok 1) [] := ⟨rfl, rfl, rfl, rfl, rfl⟩

/-- The second clause of AssembledHostsNeverStop: `ENC 0x10` does not assemble. -/
theorem witness_AssembledHostsNeverStop_refused :
    step (doing (.issue none (.form .enc (.lit 16)))) = .refused (.literalDoesNotAssemble .enc 16) := by rfl

theorem witness_AssembledLinesAreLegal :
    assemble ['E', 'N', 'C', 'F', ' ', '0', 'x', 'B'] = some 0x1000B#18 ∧
    ['E', 'N', 'C', 'F', ' ', '0', 'x', 'B'].takeWhile (· != ' ') ≠ ['.', 'w', 'o', 'r', 'd'] := ⟨rfl, by decide⟩

/-- Also for PipedSenderAndReceiverRoundTrip, whose second run meets the like hypotheses of the receiver below. -/
theorem witness_SenderPrintsItsFrame :
    let arg : Text := ['1', '0', '1', '1']
    let a := HostAction.send [arg] ['x']
    (doing a).OneTransaction 0 [] ∧ (doing a).NextAction 0 (doer a) a [] ∧ arg.length = 4 ∧
    ∀ c ∈ arg, c = '0' ∨ c = '1' :=
  ⟨(doing_meets _).2.1, (doing_meets _).2.2, rfl, by simp⟩

/-- No argument at all, two arguments, and one of the wrong length. -/
theorem witness_SenderRejectsInvalidPayload :
    ∀ args ∈ [[], [['1', '0', '1', '1'], []], [['1', '0', '1']]],
      (doing (.send args [])).turn = .host 0 ∧
      (doing (.send args [])).NextAction 0 (doer (.send args [])) (.send args []) [] ∧
      ¬∃ arg : Text, args = [arg] ∧ arg.length = 4 ∧ ∀ c ∈ arg, c = '0' ∨ c = '1' := by
  intro args ha
  refine ⟨(doing_meets _).1, (doing_meets _).2.2, ?_⟩
  rintro ⟨arg, rfl, hl, -⟩
  simp only [List.mem_cons, List.not_mem_nil, or_false, List.cons.injEq, and_false, reduceCtorEq, false_or, and_true] at ha
  subst ha
  simp at hl

/-- Both clauses on what follows the line: a LF and more characters, and the end of input. -/
theorem witness_ReceiverPrintsThePayload :
    let mid : Text := ['0', '1', '1', '0', '0', '1', '1']
    frameText = ['1', '0', '1', '0'] ++ mid ++ ['0', '1', '0', '1'] ∧ mid.length = 7 ∧
    (∀ c ∈ mid, c = '0' ∨ c = '1') ∧
    ∀ stdin ∈ [frameText ++ '\n' :: ['x'], frameText],
      (doing (.receive stdin)).OneTransaction 0 [] ∧
      (doing (.receive stdin)).NextAction 0 (doer (.receive stdin)) (.receive stdin) [] ∧
      (stdin = frameText ++ '\n' :: ['x'] ∨ stdin = frameText) :=
  ⟨rfl, rfl, by simp, by intro stdin h; exact ⟨(doing_meets _).2.1, (doing_meets _).2.2, by simpa using h⟩⟩

/-- A candidate of length 8 whose markers pass (spec/90_conflicts.md C2), and end of input at once. -/
theorem witness_ReceiverRejectsInvalidFrame :
    let t : Text := ['1', '0', '1', '0', '0', '1', '0', '1']
    ∀ t' ∈ [t, []], (doing (.receive t')).turn = .host 0 ∧
      (doing (.receive t')).NextAction 0 (doer (.receive t')) (.receive t') [] ∧ '\n' ∉ t' ∧
      ¬∃ mid : Text, t' = ['1', '0', '1', '0'] ++ mid ++ ['0', '1', '0', '1'] ∧ mid.length = 7 ∧
        ∀ c ∈ mid, c = '0' ∨ c = '1' := by
  intro t t' ht
  refine ⟨(doing_meets _).1, (doing_meets _).2.2, by rcases List.mem_pair.1 ht with rfl | rfl <;> decide, ?_⟩
  rintro ⟨mid, hm, hl, -⟩
  have h := congrArg List.length hm
  rcases List.mem_pair.1 ht with rfl | rfl <;> simp [hl, t] at h

theorem witness_CorrectedErrorIsInvisibleAtTheWire :
    let a := HostAction.receive (chars (buildFrame (hammingEncode 0xB#4)) ++ ['\n'])
    let b := HostAction.receive (chars (buildFrame (hammingEncode 0xB#4) ^^^ 1#15 <<< (11 - 3)) ++ ['\n'])
    (doing a).OneTransaction 0 [] ∧ (doing b).OneTransaction 0 [] ∧
    (doing a).NextAction 0 (doer a) a [] ∧ (doing b).NextAction 0 (doer b) b [] ∧ a ≠ b :=
  ⟨(doing_meets _).2.1, (doing_meets _).2.1, (doing_meets _).2.2, (doing_meets _).2.2, by decide⟩

/-- Distance exactly 2, the least the hypothesis admits. -/
theorem witness_SilentlyWrongPayloadAtTheWire :
    let a := HostAction.receive (chars (buildFrame 0x53#7) ++ ['\n'])
    distance 0x53#7 (hammingEncode 0xB#4) = 2 ∧
    (doing a).OneTransaction 0 [] ∧ (doing a).NextAction 0 (doer a) a [] :=
  ⟨by decide, (doing_meets _).2.1, (doing_meets _).2.2⟩

end Sys2Proof.Tests
end

section
/-! ### Responses are legal, and depend on the command word alone -/

namespace Sys2Proof.Machine

/-! #### What an operation and a served word answer -/

/-- An operation answers OK, or raises one of the two errors of the core (spec/60_exceptions.md R205). -/
theorem exec_cases (i : Instr) (s : State) :
    (∃ res syn, exec i s = respond .ok res syn s) ∨
    exec i s = raise .illegalCmd s ∨ exec i s = raise .invalidFrame s := by
  cases i
  case parse x =>
    simp only [exec, execParse]
    split
    · exact .inr (.inr rfl)
    · exact .inl ⟨_, _, rfl⟩
  all_goals
    simp only [exec, execEnc, execBld, execEncf, execSyn, execCor, execDec]
    split
    · exact .inr (.inl rfl)
    · exact .inl ⟨_, _, rfl⟩

theorem serve_of_decode {w : Word} {i : Instr} (hd : decode w = .ok i) (s : State) :
    serve w s = exec i s := by
  simp [serve, hd]

/-- A served word is answered as an operation is: an illegal word raises ILLEGAL_CMD (spec/30_encoding.md R67). -/
theorem serve_cases (w : Word) (s : State) :
    (∃ res syn, serve w s = respond .ok res syn s) ∨
    serve w s = raise .illegalCmd s ∨ serve w s = raise .invalidFrame s := by
  cases hd : decode w with
  | ok i => rw [serve_of_decode hd]; exact exec_cases i s
  | error e => exact .inr (.inl (by simp [serve, hd]))

theorem Response.Legal.ok (res : BitVec 15) (syn : Syndrome) : Response.Legal ⟨.ok, res, syn⟩ :=
  ⟨fun hne => absurd rfl hne, nofun⟩

theorem Response.Legal.zeros {e : Status} (he : e ≠ .invalidPayload) : Response.Legal ⟨e, 0#15, 0#3⟩ :=
  ⟨fun _ => ⟨rfl, rfl⟩, he⟩

theorem responseTo_legal {w : Word} {r : Response} (hr : responseTo w = some r) : r.Legal := by
  rcases serve_cases w State.reset with ⟨res, syn, hs⟩ | hs | hs <;>
    simp only [responseTo, hs, respond_eq, raise_eq, State.withResponse_respPort, Option.some.injEq] at hr <;>
    subst hr
  · exact .ok res syn
  · exact .zeros (by decide)
  · exact .zeros (by decide)

/-! #### The response port after a step -/

@[simp] theorem State.deliver_respPort (s : State) (owner : Option Nat) :
    (s.deliver owner).respPort = s.respPort := by
  unfold State.deliver
  split <;> rfl

/-- After a step the response port is empty, or unchanged, or carries the response of the word just served. -/
theorem StepCase.respPort {s t : State} (hc : StepCase s t) :
    t.respPort = none ∨ t.respPort = s.respPort ∨
    ∃ w r, s.cmdPort = some w ∧ responseTo w = some r ∧ t.respPort = some r := by
  cases hc with
  | served w r u hw hr hu => exact .inr (.inr ⟨w, r, hw, hr, by simp⟩)
  | cut w hw ht => exact .inl rfl
  | cleared hw ht => exact .inl rfl
  | idle => exact .inr (.inl rfl)
  | presented n h w ht hh hu hw => exact .inl rfl
  | moved n h h' ht hh hu hm => exact .inr (.inl rfl)

/-! #### The responses a host holds: one rule per update of `HostState` -/

section
variable {h : HostState}

@[simp] theorem HostState.dropActions_responsesLegal (n : Nat) :
    (h.dropActions n).ResponsesLegal ↔ h.ResponsesLegal := Iff.rfl

@[simp] theorem HostState.countFree_responsesLegal : h.countFree.ResponsesLegal ↔ h.ResponsesLegal := Iff.rfl

@[simp] theorem HostState.record_responsesLegal (run : SurfaceRun) :
    (h.record run).ResponsesLegal ↔ h.ResponsesLegal := Iff.rfl

theorem HostState.ResponsesLegal.release (hl : h.ResponsesLegal) : h.release.ResponsesLegal :=
  ⟨hl.1, by simp⟩

theorem HostState.ResponsesLegal.await (hl : h.ResponsesLegal) {p : Pending} (hp : p.response = none) :
    (h.await p).ResponsesLegal := by
  refine ⟨hl.1, fun q r hq hr => ?_⟩
  cases hq
  simp [hp] at hr

theorem HostState.ResponsesLegal.receive (hl : h.ResponsesLegal) {r : Response} (hr : r.Legal) :
    (h.receive r).ResponsesLegal := by
  refine ⟨hl.1, fun p r' hp hr' => ?_⟩
  obtain ⟨q, -, rfl⟩ := Option.map_eq_some_iff.1 hp
  exact Option.some.inj hr' ▸ hr

theorem HostState.ResponsesLegal.bind (hl : h.ResponsesLegal) (v : VarName) {r : Response} (hr : r.Legal) :
    (h.bind v r).ResponsesLegal := by
  refine ⟨fun v' r' hv => ?_, hl.2⟩
  rcases List.mem_cons.1 hv with heq | hold
  · cases heq; exact hr
  · exact hl.1 v' r' (List.mem_of_mem_filter hold)

end

theorem finish_responsesLegal {h : HostState} (hl : h.ResponsesLegal) (who : Client) {r : Response} (hr : r.Legal) :
    (finish who r h).ResponsesLegal := by
  rcases who with ⟨_ | v⟩ | ⟨args, stdin⟩ | ⟨candidate, unread⟩
  · exact hl.release
  · exact hl.release.bind v hr
  · exact (HostState.record_responsesLegal _).2 hl.release
  · exact (HostState.record_responsesLegal _).2 hl.release

theorem hostAct_responsesLegal {free : Nat → Nat} {a : HostAction} {h h' : HostState} (hl : h.ResponsesLegal)
    (ha : hostAct free a h = .ok h') : h'.ResponsesLegal := by
  rcases hostAct_cases ha with rfl | ⟨n, rfl⟩ | ⟨p, rfl, hp, -⟩ | ⟨run, rfl, -⟩
  · exact hl
  · exact (HostState.dropActions_responsesLegal n).2 hl
  · exact hl.await hp
  · exact (HostState.record_responsesLegal run).2 hl

/-- The only response a host's own move can bind is the one it waited for. -/
theorem hostMove_responsesLegal {n : Nat} {h h' : HostState} (hl : h.ResponsesLegal)
    (hm : hostMove n h = .ok h') : h'.ResponsesLegal := by
  rcases hostMove_cases hm with rfl | ⟨p, r, hp, hr, rfl⟩ | ⟨-, a, rest, -, ha⟩
  · exact hl
  · exact finish_responsesLegal hl p.who (hl.2 p r hp hr)
  · exact hostAct_responsesLegal (by simpa using hl) ha

/-- Settles O29, by the six cases of a step: a response new on the port or at a host is that of a served word, and those
are legal. -/
theorem stepKeepsResponsesLegal : Obligations.StepKeepsResponsesLegal := by
  unfold Obligations.StepKeepsResponsesLegal
  rintro s t ⟨hport, hhosts⟩ hstep
  have hc := step_cases hstep
  constructor
  · intro r hr
    rcases hc.respPort with hnone | hsame | ⟨w, r', -, hw, hserved⟩
    · simp [hnone] at hr
    · exact hport r (hsame ▸ hr)
    · cases hserved.symm.trans hr
      exact responseTo_legal hw
  · exact hc.all_hosts hhosts (fun _ _ _ _ _ _ _ hr hl => hl.receive (responseTo_legal hr))
      (fun _ _ _ hm hl => hostMove_responsesLegal hl hm)

/-- Settles O27: both steps serve the word, and the response of a word is the same in every state. -/
theorem responseDependsOnCommandAlone : Obligations.ResponseDependsOnCommandAlone := by
  unfold Obligations.ResponseDependsOnCommandAlone
  intro s t w hs ht hsw htw
  obtain ⟨r, -, hserve⟩ := serve_deliver w
  exact ⟨_, _, r, by rw [step_core hs hsw, hserve], by rw [step_core ht htw, hserve], by simp, by simp⟩

/-! #### A word placed from outside -/

theorem decode_of_decodeTableWord {nbits w : Nat} {i : Instr} (hd : decodeTableWord nbits w = some i) :
    decode (BitVec.ofNat 18 w) = .ok i := by
  simp only [decodeTableWord, Option.ite_none_right_eq_some] at hd
  obtain ⟨-, hd⟩ := hd
  split at hd
  · next j hj => cases hd; exact hj
  · cases hd

/-- The step after a word is placed serves it with the port empty and hands its response to no host. -/
theorem step_withFetchWord (s : State) (nbits w : Nat) :
    step (s.withFetchWord nbits w) = deliverResult none (serve (BitVec.ofNat 18 w) s.takeCommand) :=
  step_core (s := s.withFetchWord nbits w) rfl rfl

/-- Settles O8: the placed word has no host, so its response goes to the response port alone. -/
theorem injectedWordRunsNext : Obligations.InjectedWordRunsNext := by
  unfold Obligations.InjectedWordRunsNext
  intro s nbits w i hd
  obtain ⟨r, hr⟩ := exec_places_response i
  refine ⟨s.takeCommand.withResponse r, ?_, hr s.takeCommand, rfl⟩
  rw [step_withFetchWord, serve_of_decode (decode_of_decodeTableWord hd), hr]
  exact congrArg Host.Outcome.next (State.deliver_none _)

end Sys2Proof.Machine
end

section
/-! ### Transactions: an operation changes only the response port, and each host gets its own response -/

namespace Sys2Proof.Machine

/-- Settles O9: placing a response is all that an operation does. -/
theorem operationChangesOnlyTheResponsePort : Obligations.OperationChangesOnlyTheResponsePort := by
  unfold Obligations.OperationChangesOnlyTheResponsePort
  intro i s
  obtain ⟨r, hr⟩ := exec_places_response i
  exact ⟨r, hr s⟩

/-- Settles O28: the core serves the word on its port, legal or not, and hands its response to the word's host. -/
theorem everyCommandIsAnsweredInOneStep : Obligations.EveryCommandIsAnsweredInOneStep := by
  unfold Obligations.EveryCommandIsAnsweredInOneStep
  intro s w hturn hw
  obtain ⟨r, hr, hserve⟩ := serve_deliver w
  exact ⟨r, responseTo_legal hr, (step_core hturn hw).trans (hserve s.portHost s.tick.takeCommand)⟩

/-- Settles O49, by what each of the six cases of a step makes of one host. -/
theorem hostsDoNotInterfere : Obligations.HostsDoNotInterfere := by
  unfold Obligations.HostsDoNotInterfere
  intro s t n h hstep hh
  have hc := step_cases hstep
  refine ⟨hc.hosts_length, ?_⟩
  rcases hc.host n h hh with hsame | hanswered | ⟨h', hturn, -, hmove, ht⟩
  · exact .inl hsame
  · exact .inr (.inl hanswered)
  · exact .inr (.inr ⟨h', hturn, hmove, ht⟩)

/-! #### The two halves of `State.Paired` -/

/-- The host whose command stands on the command port is there, and that command is its unanswered one. -/
def State.PortOwned (s : State) : Prop :=
  ∀ n w, s.portHost = some n → s.cmdPort = some w → ∃ h, s.hosts[n]? = some h ∧ h.unanswered = some w

/-- A host that waits has no response, or the response to its own command. -/
def HostState.HoldsOwnResponse (h : HostState) : Prop :=
  ∀ p, h.waiting = some p → p.response = none ∨ p.response = responseTo p.cmd

theorem State.paired_iff (s : State) : s.Paired ↔ s.PortOwned ∧ ∀ h ∈ s.hosts, h.HoldsOwnResponse := by
  constructor
  · rintro ⟨hport, hanswered⟩
    refine ⟨fun n w hn hw => ?_, hanswered⟩
    obtain ⟨h, p, hh, hp, hcmd, hnone⟩ := hport n w hn hw
    exact ⟨h, hh, HostState.unanswered_eq_some.2 ⟨p, hp, hnone, hcmd⟩⟩
  · rintro ⟨howned, hanswered⟩
    refine ⟨fun n w hn hw => ?_, hanswered⟩
    obtain ⟨h, hh, hu⟩ := howned n w hn hw
    obtain ⟨p, hp, hnone, hcmd⟩ := HostState.unanswered_eq_some.1 hu
    exact ⟨h, p, hh, hp, hcmd, hnone⟩

/-! #### The command port -/

/-- With no command on the port there is nothing to own. -/
theorem State.portOwned_of_cmdPort_eq_none {s : State} (h : s.cmdPort = none) : s.PortOwned := by
  intro n w _ hw
  simp [h] at hw

@[simp] theorem State.deliver_cmdPort (s : State) (owner : Option Nat) :
    (s.deliver owner).cmdPort = s.cmdPort := by
  unfold State.deliver
  split <;> rfl

/-- A command that stays on the port stays its host's: while it is unanswered, that host makes no move of its own. -/
theorem StepCase.portOwned {s t : State} (hc : StepCase s t) (ho : s.PortOwned) : t.PortOwned := by
  cases hc with
  | served w r u hw hr hu =>
    have hfree : u.cmdPort = none := by rcases hu with ⟨-, rfl⟩ | ⟨-, rfl⟩ <;> rfl
    exact State.portOwned_of_cmdPort_eq_none (by simpa using hfree)
  | cut w hw ht => exact State.portOwned_of_cmdPort_eq_none rfl
  | cleared hw ht => exact State.portOwned_of_cmdPort_eq_none hw
  | idle => exact ho
  | presented n h w ht hh hu hw =>
    intro n' w' hn' hw'
    cases hn'
    cases hw'
    exact ⟨h, hh, hu⟩
  | moved n h h' ht hh hu hm =>
    intro m w hn hw
    obtain ⟨k, hk, hku⟩ := ho m w hn hw
    have hnm : n ≠ m := by
      rintro rfl
      cases hh.symm.trans hk
      simp [hu] at hku
    exact ⟨k, (List.getElem?_set_ne hnm).trans hk, hku⟩

/-! #### The response a host holds -/

section
variable {h : HostState}

theorem HostState.holdsOwnResponse_of_idle (hw : h.waiting = none) : h.HoldsOwnResponse := by
  intro p hp
  simp [hw] at hp

/-- A host whose unanswered command is `w` holds its own response once it has received that of `w`. -/
theorem HostState.holdsOwnResponse_receive {w : Word} {r : Response} (hu : h.unanswered = some w)
    (hr : responseTo w = some r) : (h.receive r).HoldsOwnResponse := by
  intro q hq
  obtain ⟨p, hp, -, rfl⟩ := HostState.unanswered_eq_some.1 hu
  simp only [HostState.receive_waiting, hp, Option.map_some, Option.some.injEq] at hq
  subst hq
  exact .inr hr.symm

end

/-- An action of a host that waits for nothing at most starts a transaction, as yet unanswered. -/
theorem hostAct_holdsOwnResponse {free : Nat → Nat} {a : HostAction} {h h' : HostState} (hw : h.waiting = none)
    (ha : hostAct free a h = .ok h') : h'.HoldsOwnResponse := by
  rcases hostAct_cases ha with rfl | ⟨n, rfl⟩ | ⟨p, rfl, hp, -⟩ | ⟨run, rfl, -⟩
  · exact HostState.holdsOwnResponse_of_idle hw
  · exact HostState.holdsOwnResponse_of_idle hw
  · intro q hq
    cases hq
    exact .inl hp
  · exact HostState.holdsOwnResponse_of_idle hw

theorem hostMove_holdsOwnResponse {n : Nat} {h h' : HostState} (hm : hostMove n h = .ok h')
    (hown : h.HoldsOwnResponse) : h'.HoldsOwnResponse := by
  rcases hostMove_cases hm with rfl | ⟨p, r, -, -, rfl⟩ | ⟨hw, a, rest, -, ha⟩
  · exact hown
  · exact HostState.holdsOwnResponse_of_idle (finish_waiting p.who r h)
  · exact hostAct_holdsOwnResponse (h := (h.dropActions 1).countFree) hw ha

/-- Settles O30, one half of the invariant at a time: the response handed out is that of the word on the port, and the
port's half says that this word is the receiving host's own command. -/
theorem stepKeepsTransactionsPaired : Obligations.StepKeepsTransactionsPaired := by
  unfold Obligations.StepKeepsTransactionsPaired
  intro s t hpaired hstep
  obtain ⟨howned, hown⟩ := s.paired_iff.1 hpaired
  have hc := step_cases hstep
  refine t.paired_iff.2 ⟨hc.portOwned howned, hc.all_hosts hown ?_ fun _ _ _ => hostMove_holdsOwnResponse⟩
  intro m h w r hm hw hh hr _
  obtain ⟨k, hk, hu⟩ := howned m w hm hw
  cases hh.symm.trans hk
  exact HostState.holdsOwnResponse_receive hu hr

end Sys2Proof.Machine
end

section
/-! ### The command word: its two fields, its row in the table of R66, and decoding as the inverse of encoding -/

namespace Sys2Proof

/-! #### The fields of a word given as an operation code and an operand -/

theorem encode_instr (op : Op) (x : Operand) : encode (op.instr x) = op.code ++ x := by simp [encode]

@[simp] theorem opField_append (c : BitVec 3) (x : Operand) : opField (c ++ x) = c :=
  (BitVec.extractLsb'_append_eq_of_le (xhi := c) (xlo := x) (start := 15) (len := 3)
    (by decide)).trans BitVec.extractLsb'_eq_self

theorem opField_toNat (w : Word) : (opField w).toNat = w.toNat / 2 ^ 15 % 2 ^ 3 := by
  simp [opField, BitVec.extractLsb'_toNat, Nat.shiftRight_eq_div_pow]

theorem operandField_toNat (w : Word) : (operandField w).toNat = w.toNat % 2 ^ 15 := by
  simp [operandField, BitVec.extractLsb'_toNat]

/-- The reserved bits of an operand are set exactly when it is too wide for its operation. -/
theorem Op.reservedSet_eq (op : Op) (x : Operand) :
    op.reservedSet x = decide (2 ^ op.valueWidth ≤ x.toNat) := by
  have hx : ¬ 2 ^ 15 ≤ x.toNat := Nat.not_le.2 x.isLt
  cases op
  case enc | encf => exact payloadReservedSet_eq x
  case bld | syn | cor | dec => exact codewordReservedSet_eq x
  case parse => exact (decide_eq_false hx).symm

theorem wellFormed_instr (op : Op) (x : Operand) :
    (op.instr x).wellFormed = decide (x.toNat < 2 ^ op.valueWidth) := by
  have h := reservedSet_eq_not_wellFormed (op.instr x)
  simp only [Op.op_instr, Op.operand_instr, Op.reservedSet_eq] at h
  rw [← Bool.not_not (op.instr x).wellFormed, ← h]
  simp [← decide_not]

/-! #### Decoding and encoding -/

/-- Decoding an encoded operation only tests its reserved bits. -/
theorem decode_encode (i : Instr) :
    decode (encode i) = if i.wellFormed then .ok i else .error (.reservedOperandBits i.op) := by
  cases hi : i.wellFormed <;> simp [decode, reservedSet_eq_not_wellFormed, hi]

theorem decode_instr_of_reservedSet {op : Op} {x : Operand} (hx : op.reservedSet x = true) :
    decode (op.code ++ x) = .error (.reservedOperandBits op) := by
  simp only [Op.reservedSet_eq, decide_eq_true_eq] at hx
  simp [← encode_instr, decode_encode, wellFormed_instr, Nat.not_lt.2 hx]

theorem decode_reservedOp (x : Operand) : decode (7#3 ++ x) = .error .reservedOp := by
  have hop : Op.ofCode 7#3 = none := rfl
  simp [decode, hop]

/-- A word decodes to its operation code's operation with its operand field, when no reserved bit is set. -/
theorem decode_eq_instr_iff (w : Word) (op : Op) :
    decode w = .ok (op.instr (operandField w)) ↔
      opField w = op.code ∧ op.reservedSet (operandField w) = false := by
  constructor
  · intro hd
    rcases decode_cases w with ⟨-, he⟩ | ⟨op', hop, ⟨-, he⟩ | ⟨hr, hok⟩⟩
    · cases he.symm.trans hd
    · cases he.symm.trans hd
    · have hinstr := Except.ok.inj (hok.symm.trans hd)
      have heq : op' = op := by simpa using congrArg Instr.op hinstr
      exact heq ▸ ⟨hop, hr⟩
  · rintro ⟨hop, hr⟩
    simp [decode, hop, hr]

/-- What a word decodes to has the word's two fields. -/
theorem fields_of_decode {w : Word} {i : Instr} (hd : decode w = .ok i) :
    opField w = i.op.code ∧ operandField w = i.operand := by
  rcases decode_cases w with ⟨-, he⟩ | ⟨op, hop, ⟨-, he⟩ | ⟨-, hok⟩⟩
  · cases he.symm.trans hd
  · cases he.symm.trans hd
  · cases hok.symm.trans hd
    simp [hop]

theorem encode_of_decode {w : Word} {i : Instr} (hd : decode w = .ok i) : encode i = w := by
  obtain ⟨hop, hx⟩ := fields_of_decode hd
  rw [encode, ← hop, ← hx, word_eq_fields]

theorem wellFormed_of_decode {w : Word} {i : Instr} (hd : decode w = .ok i) : i.wellFormed = true := by
  rw [← encode_of_decode hd, decode_encode] at hd
  split at hd
  · assumption
  · cases hd

/-- Settles O2: the fields of an encoded operation are its own, so decoding only tests its reserved bits. -/
theorem decodeOfEncodeIsInstruction : Obligations.DecodeOfEncodeIsInstruction := by
  unfold Obligations.DecodeOfEncodeIsInstruction
  exact ⟨fun i hi => by simp [decode_encode, hi], fun i hi => by simp [decode_encode, hi]⟩

/-- Settles O3: a word is its two fields, and what it decodes to has them. -/
theorem encodeOfDecodeIsWord : Obligations.EncodeOfDecodeIsWord := by
  unfold Obligations.EncodeOfDecodeIsWord
  exact fun w i hd => ⟨wellFormed_of_decode hd, encode_of_decode hd⟩

/-- Settles O1, word by word. -/
theorem specExampleWordsDecode : Obligations.SpecExampleWordsDecode := by
  unfold Obligations.SpecExampleWordsDecode
  exact ⟨rfl, rfl, rfl, rfl, rfl, rfl, rfl, rfl, rfl, rfl⟩

/-! #### The match and mask table -/

/-- A row's mask leaves out the bits of the operation's value. -/
theorem Op.mask_eq (op : Op) : op.mask = BitVec.allOnes 18 <<< op.valueWidth := by cases op <;> rfl

theorem Op.pattern_toNat (op : Op) : op.pattern.toNat = op.code.toNat * 2 ^ 15 := by cases op <;> rfl

/-- Masking a word clears the bits of the operation's value. -/
theorem and_mask_toNat (w : Word) (op : Op) :
    (w &&& op.mask).toNat = w.toNat / 2 ^ op.valueWidth * 2 ^ op.valueWidth := by
  have hle : w.toNat / 2 ^ op.valueWidth * 2 ^ op.valueWidth ≤ w.toNat := Nat.div_mul_le_self ..
  rw [op.mask_eq, ← BitVec.shiftLeft_ushiftRight, BitVec.toNat_shiftLeft, BitVec.toNat_ushiftRight,
    Nat.shiftRight_eq_div_pow, Nat.shiftLeft_eq, Nat.mod_eq_of_lt (hle.trans_lt w.isLt)]

/-- A row of the table matches a word exactly when the word decodes to the row's operation. -/
theorem row_matches_iff (w : Word) (op : Op) :
    w &&& op.mask = op.pattern ↔ decode w = .ok (op.instr (operandField w)) := by
  have hw : w.toNat < 2 ^ 18 := w.isLt
  rw [decode_eq_instr_iff, Op.reservedSet_eq, decide_eq_false_iff_not, ← BitVec.toNat_inj, ← BitVec.toNat_inj,
    and_mask_toNat, Op.pattern_toNat, opField_toNat, operandField_toNat]
  cases op <;> simp only [Op.valueWidth, Op.code, BitVec.toNat_ofNat] <;> omega

end Sys2Proof

namespace Sys2Proof.Machine

/-- An illegal word is answered ILLEGAL_CMD with zeros (spec/30_encoding.md R64, R65). -/
theorem serve_of_illegal {w : Word} {e : Illegal} (hd : decode w = .error e) (s : State) :
    serve w s = .next (s.withResponse ⟨.illegalCmd, 0#15, 0#3⟩) := by
  simp [serve, hd]

/-- Settles O4: the rows that match a word are those of the operation it decodes to. -/
theorem wordSelectsRowByMaskAndMatch : Obligations.WordSelectsRowByMaskAndMatch := by
  unfold Obligations.WordSelectsRowByMaskAndMatch
  intro w
  cases hd : decode w with
  | ok i =>
    have hi : i.op.instr (operandField w) = i := by rw [(fields_of_decode hd).2, Instr.instr_op_operand]
    refine .inl ⟨i.op, (row_matches_iff w i.op).2 (by rw [hd, hi]), fun op' hop' => ?_, ?_, ?_⟩
    · have hinstr := Except.ok.inj (hd.symm.trans ((row_matches_iff w op').1 hop'))
      simp [hinstr]
    · exact congrArg Except.ok hi.symm
    · exact fun s => (serve_of_decode hd s).trans (congrArg (exec · s) hi.symm)
  | error e =>
    refine .inr ⟨fun op hop => ?_, serve_of_illegal hd⟩
    cases hd.symm.trans ((row_matches_iff w op).1 hop)

end Sys2Proof.Machine
end

section
/-! ### The core's step on a command word, and ENCF against BLD after ENC -/

namespace Sys2Proof.Machine

/-! #### A step on an illegal word -/

theorem step_of_decode {s : State} {w : Word} {i : Instr} (ht : s.turn = .core) (hw : s.cmdPort = some w)
    (hd : decode w = .ok i) : step s = deliverResult s.portHost (exec i s.tick.takeCommand) := by
  rw [step_core ht hw, serve_of_decode hd]

/-- The core answers an illegal word with ILLEGAL_CMD and does nothing else (spec/30_encoding.md R64, R65). -/
theorem step_of_illegal {s : State} {w : Word} {e : Illegal} (ht : s.turn = .core) (hw : s.cmdPort = some w)
    (hd : decode w = .error e) :
    step s = .next ((s.tick.takeCommand.withResponse ⟨.illegalCmd, 0#15, 0#3⟩).deliver s.portHost) := by
  rw [step_core ht hw, serve_of_illegal hd, deliverResult]

/-- PARSE answers OK or INVALID_FRAME, the same in every state (spec/30_encoding.md R65,
spec/42_frame_parser.md R140). -/
theorem exec_parse_not_illegalCmd (x : Operand) :
    ∃ r : Response, r.status ≠ .illegalCmd ∧ ∀ s, exec (.parse x) s = .next (s.withResponse r) := by
  obtain ⟨r, hr⟩ := exec_places_response (.parse x)
  refine ⟨r, ?_, hr⟩
  have hx := hr State.reset
  simp only [exec, execParse, respond_eq, raise_eq] at hx
  split at hx <;> cases hx <;> nofun

/-- Settles O6: a set reserved bit makes the word illegal, and PARSE has none. -/
theorem reservedOperandBitsAreIllegal : Obligations.ReservedOperandBitsAreIllegal := by
  unfold Obligations.ReservedOperandBitsAreIllegal
  intro s op x ht hw
  constructor
  · intro hreserved
    obtain ⟨o, rfl, hx⟩ : ∃ o : Op, op = o.code ∧ o.reservedSet x = true := by
      rcases hreserved with ⟨rfl | rfl, hx⟩ | ⟨rfl | rfl | rfl | rfl, hx⟩
      · exact ⟨.enc, rfl, bne_iff_ne.2 hx⟩
      · exact ⟨.encf, rfl, bne_iff_ne.2 hx⟩
      · exact ⟨.bld, rfl, bne_iff_ne.2 hx⟩
      · exact ⟨.syn, rfl, bne_iff_ne.2 hx⟩
      · exact ⟨.cor, rfl, bne_iff_ne.2 hx⟩
      · exact ⟨.dec, rfl, bne_iff_ne.2 hx⟩
    exact step_of_illegal ht hw (decode_instr_of_reservedSet hx)
  · rintro rfl
    obtain ⟨r, hr, hexec⟩ := exec_parse_not_illegalCmd x
    refine ⟨r, hr, ?_⟩
    rw [step_of_decode ht hw (decode_encode (.parse x)), hexec]
    rfl

/-- Settles O5: no operation has code 7. -/
theorem reservedOperationIsIllegal : Obligations.ReservedOperationIsIllegal := by
  unfold Obligations.ReservedOperationIsIllegal
  exact fun s x ht hw => ⟨step_of_illegal ht hw (decode_reservedOp x), rfl⟩

/-- Settles O7: a step on a word that decodes serves it by its operation. -/
theorem stepRunsDecodedOperation : Obligations.StepRunsDecodedOperation := by
  unfold Obligations.StepRunsDecodedOperation
  exact fun s w i ht hw hd => step_of_decode ht hw hd

/-! #### ENCF is BLD after ENC -/

@[simp] theorem codewordOf_zext15 (cw : Codeword) : codewordOf (zext15 cw) = cw := by
  have hcw : cw.toNat < 2 ^ 7 := cw.isLt
  simpa [codewordOf, zext15, ← BitVec.toNat_inj, BitVec.extractLsb'_toNat] using hcw

@[simp] theorem codewordReservedSet_zext15 (cw : Codeword) : codewordReservedSet (zext15 cw) = false := by
  have hcw : cw.toNat < 2 ^ 7 := cw.isLt
  simp [codewordReservedSet_eq, zext15]
  omega

theorem exec_enc (x : Operand) (s : State) :
    exec (.enc x) s = if payloadReservedSet x then .next (s.withResponse ⟨.illegalCmd, 0#15, 0#3⟩)
      else .next (s.withResponse ⟨.ok, zext15 (hammingEncode (payloadOf x)), 0#3⟩) := rfl

theorem exec_bld (x : Operand) (s : State) :
    exec (.bld x) s = if codewordReservedSet x then .next (s.withResponse ⟨.illegalCmd, 0#15, 0#3⟩)
      else .next (s.withResponse ⟨.ok, buildFrame (codewordOf x), 0#3⟩) := rfl

theorem exec_encf (x : Operand) (s : State) :
    exec (.encf x) s = if payloadReservedSet x then .next (s.withResponse ⟨.illegalCmd, 0#15, 0#3⟩)
      else .next (s.withResponse ⟨.ok, buildFrame (hammingEncode (payloadOf x)), 0#3⟩) := rfl

/-- Settles O19, by ENC's one test: ENCF makes the same one, and BLD's test passes on every codeword. -/
theorem encfEqualsBldAfterEnc : Obligations.EncfEqualsBldAfterEnc := by
  unfold Obligations.EncfEqualsBldAfterEnc
  intro x s s' u r henc hr
  rw [exec_enc] at henc
  rw [exec_encf]
  split at henc
  · next hx =>
    cases henc
    cases hr
    exact ⟨nofun, fun _ => by rw [if_pos hx]; rfl⟩
  · next hx =>
    cases henc
    cases hr
    exact ⟨fun _ => by simp [exec_bld, hx], fun hne => absurd rfl hne⟩

end Sys2Proof.Machine
end

section
/-! ### Operands and lines: what a host's operand and an assembler line become -/

namespace Sys2Proof

theorem Op.valueWidth_le (op : Op) : op.valueWidth ≤ 15 := by cases op <;> decide

end Sys2Proof

namespace Sys2Proof.Machine

/-! #### The operand field of a number -/

/-- A number that fits an operation's value is the operand field of a well-formed operation. -/
theorem ofNat_operand_of_fits {op : Op} {n : Nat} (hn : n < 2 ^ op.valueWidth) :
    (BitVec.ofNat 15 n).toNat = n ∧ (op.instr (BitVec.ofNat 15 n)).wellFormed = true := by
  have hto : (BitVec.ofNat 15 n).toNat = n :=
    Nat.mod_eq_of_lt (hn.trans_le (Nat.pow_le_pow_right (by decide) op.valueWidth_le))
  exact ⟨hto, by simpa [wellFormed_instr, hto] using hn⟩

theorem formedOperand_toNat {x : Nat} (free : Nat) (hx : x < 2 ^ 15) : (formedOperand free x).toNat = x := by
  rw [formedOperand, if_pos hx, BitVec.toNat_ofNat, Nat.mod_eq_of_lt hx]

section
variable (free : Nat → Nat) (h : HostState) {op : Op} {n : Nat}

theorem resolveHostCmd_lit_of_fits (hn : n < 2 ^ op.valueWidth) :
    resolveHostCmd free h (.form op (.lit n)) = .ok (encode (op.instr (BitVec.ofNat 15 n))) := if_pos hn

theorem resolveHostCmd_lit_of_wide (hn : 2 ^ op.valueWidth ≤ n) :
    resolveHostCmd free h (.form op (.lit n)) = .error (.literalDoesNotAssemble op n) := if_neg (Nat.not_lt.2 hn)

theorem resolveHostCmd_formed (op : Op) {e : HostExpr} (he : ∀ n, e ≠ .lit n) :
    resolveHostCmd free h (.form op e) =
      .ok (encode (op.instr (formedOperand (free 0) (operandValue free h e)))) := formCommand_formed _ op _ he

/-- Only a literal that is too wide for its operation has no command word. -/
theorem resolveHostCmd_error {cmd : HostCmd} {e : Refusal} (hc : resolveHostCmd free h cmd = .error e) :
    ∃ op n, cmd = .form op (.lit n) ∧ e = .literalDoesNotAssemble op n ∧ 2 ^ op.valueWidth ≤ n := by
  cases cmd with
  | raw w => cases hc
  | form op x =>
    by_cases hx : ∃ n, x = .lit n
    · obtain ⟨n, rfl⟩ := hx
      rcases Nat.lt_or_ge n (2 ^ op.valueWidth) with hn | hn
      · cases (resolveHostCmd_lit_of_fits free h hn).symm.trans hc
      · cases (resolveHostCmd_lit_of_wide free h hn).symm.trans hc
        exact ⟨op, n, rfl, rfl, hn⟩
    · cases (resolveHostCmd_formed free h op (not_exists.1 hx)).symm.trans hc

end

/-- Settles O38. A literal is tested against its operation's width; a formed operand of 15 bits is the field itself, and
the width then decides whether a reserved bit is set. -/
theorem hostOperandBecomesCommandWord : Obligations.HostOperandBecomesCommandWord := by
  unfold Obligations.HostOperandBecomesCommandWord
  intro free h op e
  refine ⟨?literal, fun he => ?formed⟩
  case literal =>
    rintro x rfl
    refine ⟨fun hx => ?_, resolveHostCmd_lit_of_wide free h⟩
    obtain ⟨hto, hwf⟩ := ofNat_operand_of_fits hx
    exact ⟨op.instr (BitVec.ofNat 15 x), resolveHostCmd_lit_of_fits free h hx, hwf, op.op_instr _,
      (congrArg BitVec.toNat (op.operand_instr _)).trans hto⟩
  case formed =>
    refine ⟨op.instr (formedOperand (free 0) (operandValue free h e)), resolveHostCmd_formed free h op he,
      op.op_instr _, fun hx => ?_⟩
    have hto := formedOperand_toNat (free 0) hx
    refine ⟨by rw [Op.operand_instr, hto], fun hfits => ?_, fun hwide s => ?_⟩
    · rw [decode_encode, wellFormed_instr, hto, decide_eq_true hfits, if_pos rfl]
    · have hreserved : op.reservedSet (formedOperand (free 0) (operandValue free h e)) = true := by
        rw [Op.reservedSet_eq, hto, decide_eq_true hwide]
      rw [encode_instr]
      exact serve_of_illegal (decode_instr_of_reservedSet hreserved) s

/-! #### Assembler lines -/

/-- Reading bits after a number that is already read. -/
theorem foldl_bits_lt (t : Text) (acc : Nat) :
    t.foldl (fun a c => 2 * a + (if c == '1' then 1 else 0)) acc < (acc + 1) * 2 ^ t.length := by
  induction t generalizing acc with
  | nil => simp
  | cons c t ih =>
    have hbit : 2 * acc + (if c == '1' then 1 else 0) + 1 ≤ (acc + 1) * 2 := by split <;> omega
    calc _ < (2 * acc + (if c == '1' then 1 else 0) + 1) * 2 ^ t.length := ih _
      _ ≤ (acc + 1) * 2 * 2 ^ t.length := Nat.mul_le_mul_right _ hbit
      _ = (acc + 1) * 2 ^ (c :: t).length := by rw [List.length_cons, Nat.pow_succ', Nat.mul_assoc]

theorem bitsValue_lt (t : Text) : bitsValue t < 2 ^ t.length :=
  (foldl_bits_lt t 0).trans_eq (by rw [Nat.zero_add, Nat.one_mul])

theorem quotedLiteral_lt {width n : Nat} {t : Text} (h : quotedLiteral width t = some n) : n < 2 ^ width := by
  unfold quotedLiteral at h
  split at h
  · next rest =>
    simp only [Option.ite_none_right_eq_some, Bool.and_eq_true, beq_iff_eq] at h
    obtain ⟨⟨⟨-, hlength⟩, -⟩, hn⟩ := h
    cases hn
    exact hlength ▸ bitsValue_lt rest.dropLast
  · cases h

theorem numberLiteral_lt {width n : Nat} {t : Text} (h : numberLiteral width t = some n) : n < 2 ^ width := by
  unfold numberLiteral at h
  dsimp only at h
  split at h
  · obtain ⟨hn, heq⟩ := Option.ite_none_right_eq_some.1 h
    cases heq
    exact hn
  · cases h

/-- An operand literal fits the width it is read for. -/
theorem operandLiteral_lt {width n : Nat} {t : Text} (h : operandLiteral width t = some n) : n < 2 ^ width := by
  unfold operandLiteral at h
  split at h
  · next m hq => cases h; exact quotedLiteral_lt hq
  · exact numberLiteral_lt h

theorem mnemonicOf_of_opOfMnemonic {t : Text} {op : Op} (h : opOfMnemonic t = some op) : mnemonicOf op = t := by
  simpa using List.find?_some h

/-- A line that is no `.word` line assembles to the operation its mnemonic names, with an operand that fits. -/
theorem assemble_cases {line : Text} {w : Word} (h : assemble line = some w)
    (hname : line.takeWhile (· != ' ') ≠ wordDirective) :
    ∃ op n, mnemonicOf op = line.takeWhile (· != ' ') ∧ n < 2 ^ op.valueWidth ∧
      w = encode (op.instr (BitVec.ofNat 15 n)) := by
  simp only [assemble, beq_iff_eq, if_neg hname] at h
  split at h
  · next op hop =>
    obtain ⟨n, hn, rfl⟩ := Option.map_eq_some_iff.1 h
    exact ⟨op, n, mnemonicOf_of_opOfMnemonic hop, operandLiteral_lt hn, rfl⟩
  · cases h

/-- Settles O41: the operand literal fits its operation's width, so the word has no reserved bit set. -/
theorem assembledLinesAreLegal : Obligations.AssembledLinesAreLegal := by
  unfold Obligations.AssembledLinesAreLegal
  intro line w hline hname
  obtain ⟨op, n, hmnemonic, hn, rfl⟩ := assemble_cases hline hname
  have hwf := (ofNat_operand_of_fits hn).2
  exact ⟨op.instr (BitVec.ofNat 15 n), by rw [decode_encode, if_pos hwf], hwf, by rw [Op.op_instr, hmnemonic]⟩

/-- Settles O40, line by line. -/
theorem assemblerExamples : Obligations.AssemblerExamples := by
  unfold Obligations.AssemblerExamples
  exact ⟨rfl, rfl, rfl, rfl, rfl, rfl, rfl⟩

end Sys2Proof.Machine
end

section
/-! ### Hosts: one turn of a host, a whole transaction, and a run that never stops -/

namespace Sys2Proof.Machine

/-! #### One turn of a host -/

/-- A host that waits for nothing takes its next action. -/
theorem hostMove_of_action {n : Nat} {h : HostState} {a : HostAction} {rest : List HostAction}
    (hw : h.waiting = none) (hs : h.script = a :: rest) :
    hostMove n h = hostAct (Config.freeHostValue n h.freeCount) a (h.dropActions 1).countFree := by
  simp [hostMove, hw, hs]

/-- A host that has its response uses it. -/
theorem hostMove_of_response {n : Nat} {h : HostState} {p : Pending} {r : Response} (hp : h.waiting = some p)
    (hr : p.response = some r) : hostMove n h = .ok (finish p.who r h) := by
  simp [hostMove, hp, hr]

section
variable {s : State} {n : Nat} {h h' : HostState}

/-- With the command port free, a host presents its unanswered command. -/
theorem step_host_presents {w : Word} (ht : s.turn = .host n) (hh : s.hosts[n]? = some h)
    (hu : h.unanswered = some w) (hport : s.cmdPort = none) : step s = .next (s.tick.present n w) := by
  simp [step, ht, turnStep, hostStep, hh, hu, hport]

/-- A host with no unanswered command moves by itself. -/
theorem step_host_moves (ht : s.turn = .host n) (hh : s.hosts[n]? = some h) (hu : h.unanswered = none)
    (hm : hostMove n h = .ok h') : step s = .next (s.tick.setHost n h') := by
  simp [step, ht, turnStep, hostStep, hh, hu, hm]

theorem step_host_refused {e : Refusal} (ht : s.turn = .host n) (hh : s.hosts[n]? = some h)
    (hu : h.unanswered = none) (hm : hostMove n h = .error e) : step s = .refused e := by
  simp [step, ht, turnStep, hostStep, hh, hu, hm]

/-- A host takes its next action, on its turn. -/
theorem step_of_nextAction {a : HostAction} {rest : List HostAction} (ht : s.turn = .host n)
    (hn : s.NextAction n h a rest)
    (ha : hostAct (Config.freeHostValue n h.freeCount) a (h.dropActions 1).countFree = .ok h') :
    step s = .next (s.tick.setHost n h') := by
  obtain ⟨hh, hw, hs⟩ := hn
  refine step_host_moves ht hh (HostState.unanswered_eq_none.2 fun p hp => ?_) ((hostMove_of_action hw hs).trans ha)
  cases hw.symm.trans hp

end

/-- What a host is when it takes its action: past it, with its counter moved on. -/
theorem afterAction_eq {h : HostState} {a : HostAction} {rest : List HostAction} (hs : h.script = a :: rest) :
    (h.dropActions 1).countFree = { h with script := rest, freeCount := h.freeCount + 1 } := by
  simp [HostState.countFree, HostState.dropActions, hs]

theorem hostTest_of_lookup {h : HostState} {v : VarName} {r : Response} (hv : h.lookup v = some r)
    (free : Nat → Nat) (equal : Bool) (st : Status) (skip : Nat) :
    hostTest free v equal st skip h = if (r.status == st) = equal then h else h.dropActions skip := by
  simp [hostTest, variableStatus, hv]

/-- A status test takes one turn, and moves the host's place in its script alone. -/
theorem step_test {s : State} {n : Nat} {h : HostState} {v : VarName} {equal : Bool} {st : Status} {skip : Nat}
    {rest : List HostAction} {r : Response} (ht : s.turn = .host n)
    (hn : s.NextAction n h (.test v equal st skip) rest) (hv : h.lookup v = some r) :
    step s = .next (s.tick.setHost n { h with
      script := if (r.status == st) = equal then rest else rest.drop skip, freeCount := h.freeCount + 1 }) := by
  have ⟨_, _, hs⟩ := hn
  have hv' : (h.dropActions 1).countFree.lookup v = some r := hv
  rw [step_of_nextAction ht hn rfl, hostTest_of_lookup hv', afterAction_eq hs]
  split <;> rfl

/-- Settles O39: a test for equality holds when the bound response has the status, one for difference when not. -/
theorem hostTestSelectsBranch : Obligations.HostTestSelectsBranch := by
  unfold Obligations.HostTestSelectsBranch
  intro s n h v st skip rest r ht hv
  constructor <;> intro hn <;> rw [step_test ht hn hv]
  · by_cases hst : r.status = st <;> simp [hst, State.setHost, State.tick]
  · by_cases hst : r.status = st <;> simp [hst, State.setHost, State.tick]

/-! #### One transaction of a host -/

/-- A machine that steps to a next state runs on from there. -/
theorem run_succ_of_next (M : Host.Core) {s t : M.State} (k : Nat) (hs : M.step s = .next t) :
    M.run (k + 1) s = M.run k t := by
  simp [Host.Core.run, hs]

theorem run_succ {s t : State} (k : Nat) (hs : step s = .next t) :
    Host.Core.run core (k + 1) s = Host.Core.run core k t := run_succ_of_next core k hs

/-- Moving on a host that was just given something. -/
theorem set_modify_same {α : Type} (l : List α) (n : Nat) (f : α → α) (a : α) :
    (l.modify n f).set n a = l.set n a := by
  apply List.ext_getElem?
  intro m
  by_cases hnm : n = m <;> simp [List.getElem?_set, hnm]

theorem turn_of_schedule {s : State} {t : Turn} {later : List Turn} (hs : s.schedule = t :: later) :
    s.turn = t := by
  simp [State.turn, hs]

/-- A waiting host that has the core to itself for three turns presents its command, is answered, and uses the response
of its word. -/
theorem run_transaction {s : State} {n : Nat} {h : HostState} {p : Pending} {later : List Turn}
    (hport : s.cmdPort = none) (hsched : s.schedule = .host n :: .core :: .host n :: later)
    (hh : s.hosts[n]? = some h) (hp : h.waiting = some p) (hr : p.response = none) :
    ∃ r, responseTo p.cmd = some r ∧ Host.Core.run core 3 s = .next { s with
      portHost := none, respPort := some r, schedule := later, hosts := s.hosts.set n (finish p.who r h) } := by
  obtain ⟨r, hresp, hserve⟩ := serve_deliver p.cmd
  let presented := s.tick.present n p.cmd
  let answered := (presented.tick.takeCommand.withResponse r).give n r
  have hpresent : step s = .next presented :=
    step_host_presents (turn_of_schedule hsched) hh (HostState.unanswered_eq_some.2 ⟨p, hp, hr, rfl⟩) hport
  have hanswer : step presented = .next answered :=
    (step_core (turn_of_schedule (congrArg List.tail hsched)) rfl).trans (hserve (some n) _)
  have hreceived : answered.hosts[n]? = some (h.receive r) := by simp [answered, presented, hh]
  have hfinish : step answered = .next (answered.tick.setHost n (finish p.who r h)) := by
    refine step_host_moves (turn_of_schedule (congrArg (List.tail ∘ List.tail) hsched)) hreceived
      (HostState.unanswered_eq_none.2 (by simp [hp])) ?_
    rw [hostMove_of_response (p := { p with response := some r }) (by simp [hp]) rfl]
    exact congrArg Except.ok (finish_with_waiting ..)
  refine ⟨r, hresp, ?_⟩
  rw [run_succ 2 hpresent, run_succ 1 hanswer, run_succ 0 hfinish]
  simp [answered, presented, Host.Core.run, State.setHost, State.tick, State.give, State.takeCommand,
    State.withResponse, State.present, hsched, hport, set_modify_same]

/-- An action that issues a command, in a host that has the core to itself for four turns, ends in that host using the
response of its command, and changes no other host. -/
theorem run_action_transaction {s : State} {n : Nat} {h : HostState} {a : HostAction} {rest : List HostAction}
    {p : Pending} {later : List Turn} (hone : s.OneTransaction n later) (hn : s.NextAction n h a rest)
    (ha : hostAct (Config.freeHostValue n h.freeCount) a (h.dropActions 1).countFree =
      .ok ((h.dropActions 1).countFree.await p)) (hp : p.response = none) :
    ∃ r, responseTo p.cmd = some r ∧ Host.Core.run core 4 s = .next { s with
      portHost := none, respPort := some r, schedule := later,
      hosts := s.hosts.set n (finish p.who r { h with script := rest, freeCount := h.freeCount + 1 }) } := by
  obtain ⟨hport, hsched⟩ := hone
  have ⟨hh, _, hs⟩ := hn
  have hissue := step_of_nextAction (turn_of_schedule hsched) hn ha
  have hself : (s.hosts.set n ((h.dropActions 1).countFree.await p))[n]? =
      some ((h.dropActions 1).countFree.await p) :=
    List.getElem?_set_self (List.getElem?_eq_some_iff.1 hh).1
  obtain ⟨r, hr, hrun⟩ := run_transaction (s := s.tick.setHost n ((h.dropActions 1).countFree.await p))
    (later := later) hport (congrArg List.tail hsched) hself rfl hp
  refine ⟨r, hr, ?_⟩
  have hfinish : finish p.who r ((h.dropActions 1).countFree.await p) =
      finish p.who r { h with script := rest, freeCount := h.freeCount + 1 } := by
    rw [← afterAction_eq hs]
    exact finish_with_waiting ..
  rw [run_succ 3 hissue, hrun, hfinish]
  simp [State.setHost, State.tick]

/-! #### The variables of a host -/

@[simp] theorem HostState.release_lookup (h : HostState) (v : VarName) : h.release.lookup v = h.lookup v := rfl

@[simp] theorem HostState.lookup_bind_self (h : HostState) (v : VarName) (r : Response) :
    (h.bind v r).lookup v = some r := List.lookup_cons_self

theorem lookup_filter_ne {v u : VarName} (hne : u ≠ v) (vars : List (VarName × Response)) :
    (vars.filter fun b => b.1 != v).lookup u = vars.lookup u := by
  have huv : (u == v) = false := beq_false_of_ne hne
  induction vars with
  | nil => rfl
  | cons b vars ih => by_cases hb : b.1 = v <;> simp [hb, List.lookup, ih, huv]

/-- Binding a variable leaves the others as they were. -/
theorem HostState.lookup_bind_ne (h : HostState) {v u : VarName} (hne : u ≠ v) (r : Response) :
    (h.bind v r).lookup u = h.lookup u := by
  have huv : (u == v) = false := beq_false_of_ne hne
  simp only [HostState.lookup, HostState.bind_vars, List.lookup, huv, lookup_filter_ne hne]

/-- Settles O37: the transaction ends with the host binding the response, and nothing else of it changes. -/
theorem hostCommandBindsItsResponse : Obligations.HostCommandBindsItsResponse := by
  unfold Obligations.HostCommandBindsItsResponse
  intro s n h bindTo cmd w rest later hone hn hcmd
  have hact : hostAct (Config.freeHostValue n h.freeCount) (.issue bindTo cmd) (h.dropActions 1).countFree =
      .ok ((h.dropActions 1).countFree.await ⟨w, .host bindTo, none⟩) := by
    rw [← resolveHostCmd_of_vars _ (h := (h.dropActions 1).countFree) (h' := h) rfl] at hcmd
    simp [hostAct, hostIssue, hcmd]
  obtain ⟨r, hr, hrun⟩ := run_action_transaction hone hn hact rfl
  refine ⟨_, _, r, hrun, hr, rfl, ?_⟩
  cases bindTo with
  | none => exact ⟨nofun, fun v _ => rfl, rfl, rfl, rfl⟩
  | some u =>
    refine ⟨fun v hv => ?_, fun v hv => ?_, rfl, rfl, rfl⟩
    · cases hv
      exact HostState.lookup_bind_self ..
    · exact HostState.lookup_bind_ne _ (fun he => hv (congrArg some he.symm)) r

/-! #### A step is refused only for a literal that does not fit -/

/-- The only action a host cannot take is to issue a literal operand that is too wide for its operation. -/
theorem hostAct_error {free : Nat → Nat} {a : HostAction} {h : HostState} {e : Refusal}
    (ha : hostAct free a h = .error e) :
    ∃ bindTo op n, a = .issue bindTo (.form op (.lit n)) ∧ e = .literalDoesNotAssemble op n ∧
      2 ^ op.valueWidth ≤ n := by
  cases a with
  | issue bindTo cmd =>
    simp only [hostAct, hostIssue] at ha
    split at ha
    · cases ha
    · next e' hc =>
      cases ha
      obtain ⟨op, n, rfl, rfl, hn⟩ := resolveHostCmd_error _ _ hc
      exact ⟨bindTo, op, n, rfl, rfl, hn⟩
  | test v equal status skip => cases ha
  | jump skip => cases ha
  | send args stdin => cases ha
  | receive stdin => cases ha

/-- A host's own move fails only in the action it takes. -/
theorem hostMove_error {n : Nat} {h : HostState} {e : Refusal} (hm : hostMove n h = .error e) :
    ∃ a ∈ h.script, ∃ (free : Nat → Nat) (k : HostState), hostAct free a k = .error e := by
  unfold hostMove at hm
  split at hm
  · split at hm <;> cases hm
  · split at hm
    · cases hm
    · next a rest hs => exact ⟨a, hs ▸ List.mem_cons_self, _, _, hm⟩

/-- A step answers a next state, or is refused because of a host's literal that is too wide for its operation. -/
theorem step_next_or_refused (s : State) :
    (∃ t, step s = .next t) ∨
    ∃ h ∈ s.hosts, ∃ bindTo op n, HostAction.issue bindTo (.form op (.lit n)) ∈ h.script ∧
      2 ^ op.valueWidth ≤ n ∧ step s = .refused (.literalDoesNotAssemble op n) := by
  cases hturn : s.turn with
  | core =>
    cases hw : s.cmdPort with
    | none => exact .inl ⟨s.tick, by simp [step, hturn, turnStep, coreStep, hw]⟩
    | some w =>
      obtain ⟨r, -, hserve⟩ := serve_deliver w
      exact .inl ⟨_, (step_core hturn hw).trans (hserve _ _)⟩
  | reset =>
    cases hw : s.cmdPort with
    | none => exact .inl ⟨s.tick.clearResponse, by simp [step, hturn, turnStep, resetStep, hw]⟩
    | some w =>
      obtain ⟨r, -, hserve⟩ := serve_deliver w
      left
      simp only [step, hturn, turnStep, resetStep, State.tick_cmdPort, hw, hserve]
      split <;> exact ⟨_, rfl⟩
  | host n =>
    cases hh : s.hosts[n]? with
    | none => exact .inl ⟨s.tick, by simp [step, hturn, turnStep, hostStep, hh]⟩
    | some h =>
      cases hu : h.unanswered with
      | some w =>
        left
        simp only [step, hturn, turnStep, hostStep, State.tick_hosts, hh, hu]
        exact ⟨_, rfl⟩
      | none =>
        cases hm : hostMove n h with
        | ok h' => exact .inl ⟨_, step_host_moves hturn hh hu hm⟩
        | error e =>
          obtain ⟨a, ha, free, k, hact⟩ := hostMove_error hm
          obtain ⟨bindTo, op, x, rfl, rfl, hx⟩ := hostAct_error hact
          refine .inr ⟨h, List.mem_of_getElem? hh, bindTo, op, x, ha, hx, ?_⟩
          exact step_host_refused hturn hh hu hm

/-! #### Assembled scripts stay assembled -/

theorem hostAct_script_subset {free : Nat → Nat} {a : HostAction} {h h' : HostState}
    (ha : hostAct free a h = .ok h') : h'.script ⊆ h.script := by
  rcases hostAct_cases ha with rfl | ⟨n, rfl⟩ | ⟨p, rfl, -, -⟩ | ⟨run, rfl, -⟩
  · exact List.Subset.refl _
  · exact List.drop_subset n h.script
  · exact List.Subset.refl _
  · exact List.Subset.refl _

/-- A host never adds to what it has yet to do. -/
theorem hostMove_script_subset {n : Nat} {h h' : HostState} (hm : hostMove n h = .ok h') :
    h'.script ⊆ h.script := by
  rcases hostMove_cases hm with rfl | ⟨p, r, -, -, rfl⟩ | ⟨-, a, rest, -, ha⟩
  · exact List.Subset.refl _
  · rw [finish_script]
    exact List.Subset.refl _
  · exact List.Subset.trans (hostAct_script_subset ha) (List.drop_subset 1 h.script)

theorem StepCase.assembled {s t : State} (hc : StepCase s t) (hs : s.Assembled) : t.Assembled :=
  hc.all_hosts hs (fun _ _ _ _ _ _ _ _ hP => hP) fun _ _ _ hm hP a ha => hP a (hostMove_script_subset hm ha)

/-- Settles O51: a refusal names a host's literal that is too wide, which an assembled script does not hold, and no host
adds to its script. -/
theorem assembledHostsNeverStop : Obligations.AssembledHostsNeverStop := by
  unfold Obligations.AssembledHostsNeverStop
  refine ⟨fun s hs => ?_, fun s e he => ?_, fun s e he => ?_⟩
  · rcases step_next_or_refused s with ⟨t, ht⟩ | ⟨h, hh, bindTo, op, n, ha, hwide, -⟩
    · exact ⟨t, ht, (step_cases ht).assembled hs⟩
    · have hfits : n < 2 ^ op.valueWidth := hs h hh _ ha
      omega
  · rcases step_next_or_refused s with ⟨t, ht⟩ | ⟨-, -, -, op, n, -, hwide, hr⟩
    · cases ht.symm.trans he
    · cases hr.symm.trans he
      exact ⟨op, n, rfl, hwide⟩
  · cases e

end Sys2Proof.Machine
end

section
/-! ### The encoder and the frame builder: the words of their operations, codewords, frames and syndromes -/

namespace Sys2Proof

theorem Machine.zext15_toNat {n : Nat} (hn : n ≤ 15) (v : BitVec n) : (zext15 v).toNat = v.toNat :=
  BitVec.toNat_setWidth_of_le hn

/-! #### The word of an operation, written as its row's pattern with a value in the low bits -/

/-- A value put into the low bits of a row's pattern is the word of the row's operation on that value
(spec/30_encoding.md R62, R66). -/
theorem pattern_or_value (op : Op) (v : BitVec op.valueWidth) :
    op.pattern ||| v.setWidth 18 = encode (op.instr (Machine.zext15 v)) := by
  have hw : op.valueWidth ≤ 15 := op.valueWidth_le
  have hv : v.toNat < 2 ^ 15 := v.isLt.trans_le (Nat.pow_le_pow_right (by decide) hw)
  rw [← BitVec.toNat_inj, Laws.encode_toNat, BitVec.toNat_or, Op.pattern_toNat, Op.op_instr, Op.operand_instr,
    Machine.zext15_toNat hw, BitVec.toNat_setWidth_of_le (hw.trans (by decide)), ← Nat.shiftLeft_eq,
    Nat.shiftLeft_add_eq_or_of_lt hv]

theorem decode_pattern_or_value (op : Op) (v : BitVec op.valueWidth) :
    decode (op.pattern ||| v.setWidth 18) = .ok (op.instr (Machine.zext15 v)) := by
  rw [pattern_or_value, decode_encode, wellFormed_instr, Machine.zext15_toNat op.valueWidth_le,
    decide_eq_true v.isLt, if_pos rfl]

end Sys2Proof

namespace Sys2Proof.Machine

/-! #### The operations on a reserved operand, and on a value -/

/-- An operand too wide for its operation is answered ILLEGAL_CMD with zeros (spec/30_encoding.md R65). -/
theorem exec_of_wide {op : Op} {x : Operand} (hx : 2 ^ op.valueWidth ≤ x.toNat) (s : State) :
    exec (op.instr x) s = .next (s.withResponse ⟨.illegalCmd, 0#15, 0#3⟩) := by
  have hr : op.reservedSet x = true := by rw [Op.reservedSet_eq, decide_eq_true hx]
  cases op
  case parse => cases hr
  all_goals exact if_pos hr

@[simp] theorem payloadOf_zext15 (pl : Payload) : payloadOf (zext15 pl) = pl := by
  have hpl : pl.toNat < 2 ^ 4 := pl.isLt
  simpa [payloadOf, zext15, ← BitVec.toNat_inj, BitVec.extractLsb'_toNat] using hpl

@[simp] theorem payloadReservedSet_zext15 (pl : Payload) : payloadReservedSet (zext15 pl) = false := by
  rw [payloadReservedSet_eq, zext15_toNat (by decide), decide_eq_false (Nat.not_le.2 pl.isLt)]

theorem exec_enc_payload (pl : Payload) (s : State) :
    exec (.enc (zext15 pl)) s = .next (s.withResponse ⟨.ok, zext15 (hammingEncode pl), 0#3⟩) := by
  simp [exec_enc]

theorem exec_bld_codeword (cw : Codeword) (s : State) :
    exec (.bld (zext15 cw)) s = .next (s.withResponse ⟨.ok, buildFrame cw, 0#3⟩) := by
  simp [exec_bld]

theorem exec_encf_payload (pl : Payload) (s : State) :
    exec (.encf (zext15 pl)) s = .next (s.withResponse ⟨.ok, buildFrame (hammingEncode pl), 0#3⟩) := by
  simp [exec_encf]

theorem exec_syn_codeword (cw : Codeword) (s : State) :
    exec (.syn (zext15 cw)) s = .next (s.withResponse ⟨.ok, zext15 (syndrome cw), syndrome cw⟩) := by
  simp [exec, execSyn]

/-! #### Codewords (spec/41_encoder_framebuilder.md R100, R102) -/

/-- The bits of a codeword: p1, p2, d1, p3, d2, d3, d4. -/
@[simp] theorem hammingEncode_bits (pl : Payload) :
    (hammingEncode pl)[6] = (pl[3] ^^ pl[2] ^^ pl[0]) ∧ (hammingEncode pl)[5] = (pl[3] ^^ pl[1] ^^ pl[0]) ∧
    (hammingEncode pl)[4] = pl[3] ∧ (hammingEncode pl)[3] = (pl[2] ^^ pl[1] ^^ pl[0]) ∧
    (hammingEncode pl)[2] = pl[2] ∧ (hammingEncode pl)[1] = pl[1] ∧ (hammingEncode pl)[0] = pl[0] := by
  revert pl
  decide

/-- The data bits are copied into the codeword. -/
@[simp] theorem extract_hammingEncode (pl : Payload) : extract (hammingEncode pl) = pl := by
  revert pl
  decide

theorem hammingEncode_injective : Function.Injective hammingEncode :=
  Function.LeftInverse.injective extract_hammingEncode

/-- A parity bit and the three bits it sums add up to 0. -/
theorem parity_xor_summands (a b c : Bool) : ((a ^^ b ^^ c) ^^ a ^^ b ^^ c) = false := by
  revert a b c
  decide

/-- Each check bit covers a parity bit and the three data bits that this parity bit sums. -/
@[simp] theorem syndrome_hammingEncode (pl : Payload) : syndrome (hammingEncode pl) = 0#3 := by
  simp only [syndrome, checkBit1, checkBit2, checkBit3, hammingEncode_bits, parity_xor_summands]
  rfl

/-! #### Frames (spec/41_encoder_framebuilder.md R101) -/

@[simp] theorem frameHeader_buildFrame (cw : Codeword) : frameHeader (buildFrame cw) = Config.header := by
  have h := BitVec.extractLsb'_append_eq_of_le (xhi := Config.header ++ cw) (xlo := Config.terminator) (start := 11)
    (len := 4) (by decide)
  have h' := BitVec.extractLsb'_append_eq_of_le (xhi := Config.header) (xlo := cw) (start := 7) (len := 4) (by decide)
  exact h.trans (h'.trans BitVec.extractLsb'_eq_self)

@[simp] theorem frameCodeword_buildFrame (cw : Codeword) : frameCodeword (buildFrame cw) = cw := by
  have h := BitVec.extractLsb'_append_eq_of_le (xhi := Config.header ++ cw) (xlo := Config.terminator) (start := 4)
    (len := 7) (by decide)
  have h' := BitVec.extractLsb'_append_eq_of_add_le (xhi := Config.header) (xlo := cw) (start := 0) (len := 7)
    (by decide)
  exact h.trans (h'.trans BitVec.extractLsb'_eq_self)

@[simp] theorem frameTerminator_buildFrame (cw : Codeword) : frameTerminator (buildFrame cw) = Config.terminator := by
  have h := BitVec.extractLsb'_append_eq_of_add_le (xhi := Config.header ++ cw) (xlo := Config.terminator)
    (start := 0) (len := 4) (by decide)
  exact h.trans BitVec.extractLsb'_eq_self

/-! #### The statements -/

/-- Settles O11: the codeword is `hammingEncode`'s, whose data bits are the payload's. -/
theorem encAnswersCodeword : Obligations.EncAnswersCodeword := by
  unfold Obligations.EncAnswersCodeword
  refine ⟨fun pl s => ⟨hammingEncode pl, decode_pattern_or_value .enc pl, exec_enc_payload pl s, ?_⟩,
    fun p q s hpq => ?_, fun x s hx => exec_of_wide (op := .enc) hx s⟩
  · obtain ⟨hp1, hp2, hd1, hp3, hd2, hd3, hd4⟩ := hammingEncode_bits pl
    exact ⟨hp1, hp2, hd1, hp3, hd2, hd3, hd4, hammingEncode_injective.eq_iff' rfl,
      hammingEncode_injective.eq_iff' rfl⟩
  · have hres := (exec_enc_payload p s).symm.trans (hpq.trans (exec_enc_payload q s))
    have hcw : zext15 (hammingEncode p) = zext15 (hammingEncode q) := by simpa [State.withResponse] using hres
    exact hammingEncode_injective (Function.LeftInverse.injective codewordOf_zext15 hcw)

/-- Settles O12: the frame is `buildFrame`'s, whose three fields are read back. -/
theorem bldAnswersFrame : Obligations.BldAnswersFrame := by
  unfold Obligations.BldAnswersFrame
  exact ⟨fun cw s => ⟨buildFrame cw, decode_pattern_or_value .bld cw, exec_bld_codeword cw s,
    frameHeader_buildFrame cw, frameCodeword_buildFrame cw, frameTerminator_buildFrame cw⟩,
    fun x s hx => exec_of_wide (op := .bld) hx s⟩

/-- Settles O13: ENCF answers the frame that BLD builds of the codeword that ENC answers. -/
theorem encfAnswersFrameOfCodeword : Obligations.EncfAnswersFrameOfCodeword := by
  unfold Obligations.EncfAnswersFrameOfCodeword
  refine ⟨fun pl s => ?_, fun x s hx => exec_of_wide (op := .encf) hx s⟩
  exact ⟨hammingEncode pl, buildFrame (hammingEncode pl), decode_pattern_or_value .encf pl, exec_encf_payload pl s,
    exec_enc_payload pl s, exec_bld_codeword _ s, frameHeader_buildFrame _, frameCodeword_buildFrame _,
    frameTerminator_buildFrame _⟩

/-- Settles O20: an accepted ENC answers a codeword of `hammingEncode`, and SYN its syndrome. -/
theorem codewordsHaveZeroSyndrome : Obligations.CodewordsHaveZeroSyndrome := by
  unfold Obligations.CodewordsHaveZeroSyndrome
  intro x s s' u r henc hr hok
  rw [exec_enc] at henc
  split at henc
  · cases henc
    cases hr
    cases hok
  · cases henc
    cases hr
    rw [exec_syn_codeword, syndrome_hammingEncode]
    rfl

/-- The row of a payload in the table of R103. -/
def codeRow (pl : Payload) : Payload × Codeword × Frame := (pl, hammingEncode pl, buildFrame (hammingEncode pl))

theorem codeTable_eq_map_codeRow : codeTable = (List.range 16).map fun n => codeRow (BitVec.ofNat 4 n) := by rfl

/-- Settles O18: the table is `hammingEncode` and `buildFrame` written out, and the operations answer these. -/
theorem encodingTableHolds : Obligations.EncodingTableHolds := by
  unfold Obligations.EncodingTableHolds
  refine ⟨by rfl, fun row hrow s => ?_⟩
  rw [codeTable_eq_map_codeRow] at hrow
  obtain ⟨n, -, rfl⟩ := List.mem_map.1 hrow
  exact ⟨exec_enc_payload _ s, exec_encf_payload _ s, exec_bld_codeword _ s⟩

end Sys2Proof.Machine
end

section
/-! ### The frame parser: PARSE is DEC behind the marker check, and one inverted marker bit fails that check -/

namespace Sys2Proof.Machine

/-! #### The marker check (spec/42_frame_parser.md R130) -/

theorem markersOk_iff (fr : Frame) :
    markersOk fr = true ↔ frameHeader fr = Config.header ∧ frameTerminator fr = Config.terminator := by
  simp only [markersOk, Bool.and_eq_true, beq_iff_eq]

@[simp] theorem markersOk_buildFrame (cw : Codeword) : markersOk (buildFrame cw) = true :=
  (markersOk_iff _).2 ⟨frameHeader_buildFrame cw, frameTerminator_buildFrame cw⟩

/-- The marker check fixes each of the 8 marker bits. -/
theorem markerBit_eq_of_markersOk {fr fr' : Frame} (h : markersOk fr = true) (h' : markersOk fr' = true) {k : Nat}
    (hk : k < 4 ∨ 11 ≤ k ∧ k < 15) : fr.getLsbD k = fr'.getLsbD k := by
  obtain ⟨hheader, hterminator⟩ := (markersOk_iff fr).1 h
  obtain ⟨hheader', hterminator'⟩ := (markersOk_iff fr').1 h'
  rcases hk with hlow | ⟨hge, hlt⟩
  · have hbit := congrArg (·.getLsbD k) (hterminator.trans hterminator'.symm)
    simpa [frameTerminator, hlow] using hbit
  · have hbit := congrArg (·.getLsbD (k - 11)) (hheader.trans hheader'.symm)
    have hoffset : k - 11 < 4 := by omega
    simpa [frameHeader, hoffset, Nat.add_sub_cancel' hge] using hbit

theorem getLsbD_xor_one_shiftLeft_self {n k : Nat} (hk : k < n) (v : BitVec n) :
    (v ^^^ 1#n <<< k).getLsbD k = !v.getLsbD k := by
  simp [hk]

/-- A single inverted marker bit makes the check fail (spec/42_frame_parser.md R133). -/
theorem markersOk_flip_markerBit {fr : Frame} (h : markersOk fr = true) {k : Nat} (hk : k < 4 ∨ 11 ≤ k ∧ k < 15) :
    markersOk (fr ^^^ 1#15 <<< k) = false := by
  refine Bool.eq_false_iff.2 fun hflipped => ?_
  have hsame := markerBit_eq_of_markersOk h hflipped hk
  rw [getLsbD_xor_one_shiftLeft_self (by omega)] at hsame
  exact (Bool.eq_not_self _).1 hsame

/-! #### What DEC and PARSE answer -/

/-- The response to a codeword that is corrected and decoded (spec/43_syndrome_corrector.md R162). -/
def decodedResponse (cw : Codeword) : Response :=
  ⟨.ok, zext15 (extract (correct cw (syndrome cw))), syndrome cw⟩

theorem exec_dec_codeword (cw : Codeword) (s : State) :
    exec (.dec (zext15 cw)) s = .next (s.withResponse (decodedResponse cw)) := by
  simp [exec, execDec, decodedResponse]

section
variable {fr : Frame}

theorem exec_parse_of_markersOk (h : markersOk fr = true) (s : State) :
    exec (.parse fr) s = .next (s.withResponse (decodedResponse (frameCodeword fr))) := by
  simp [exec, execParse, frameOf, h, decodedResponse]

theorem exec_parse_of_not_markersOk (h : markersOk fr = false) (s : State) :
    exec (.parse fr) s = .next (s.withResponse ⟨.invalidFrame, 0#15, 0#3⟩) := by
  simp [exec, execParse, frameOf, h]

/-- PARSE answers OK only when both markers stand. -/
theorem markersOk_of_exec_parse_ok {s s' : State} {r : Response} (hexec : exec (.parse fr) s = .next s')
    (hr : s'.respPort = some r) (hok : r.status = .ok) : markersOk fr = true := by
  refine Bool.eq_true_of_not_eq_false fun h => ?_
  cases (exec_parse_of_not_markersOk h s).symm.trans hexec
  cases hr
  cases hok

end

/-! #### The statements -/

/-- Settles O17, by the marker check: where it passes, PARSE answers as DEC does on the middle of the frame. -/
theorem parseAnswersPayloadOrInvalidFrame : Obligations.ParseAnswersPayloadOrInvalidFrame := by
  unfold Obligations.ParseAnswersPayloadOrInvalidFrame
  intro fr s
  have hfr : zext15 fr = fr := BitVec.setWidth_eq fr
  refine ⟨(decode_pattern_or_value .parse fr).trans (congrArg (Except.ok ∘ Instr.parse) hfr),
    fun hmarkers => ?_, fun hmarkers => ?_⟩
  · exact ⟨_, _, exec_parse_of_markersOk ((markersOk_iff fr).2 hmarkers) s, exec_dec_codeword (frameCodeword fr) s⟩
  · exact exec_parse_of_not_markersOk (Bool.eq_false_iff.2 (hmarkers ∘ (markersOk_iff fr).1)) s

/-- Settles O25: an OK answer means that both markers stand, one inverted marker bit breaks one of them, and a frame
with both markers is a built one, whatever its codeword. -/
theorem oneFlippedMarkerBitInvalidates : Obligations.OneFlippedMarkerBitInvalidates := by
  unfold Obligations.OneFlippedMarkerBitInvalidates
  intro fr s s' r hexec hr hok
  have hmarkers := markersOk_of_exec_parse_ok hexec hr hok
  exact ⟨fun k hk => exec_parse_of_not_markersOk (markersOk_flip_markerBit hmarkers hk) s,
    fun cw => ⟨_, rfl, exec_parse_of_markersOk (markersOk_buildFrame cw) s⟩⟩

end Sys2Proof.Machine
end

section
/-! ### The syndrome corrector: the syndrome is linear, so it names the one inverted position -/

namespace Sys2Proof.Machine

/-! #### The syndrome (spec/43_syndrome_corrector.md R150, R151) -/

/-- Each check bit is a sum over fixed positions, so the syndrome of a sum of words is the sum of their syndromes. -/
theorem syndrome_xor (a b : Codeword) : syndrome (a ^^^ b) = syndrome a ^^^ syndrome b := by
  have h1 : checkBit1 (a ^^^ b) = (checkBit1 a ^^ checkBit1 b) := by
    simp only [checkBit1, BitVec.getElem_xor, Bool.xor_assoc, Bool.xor_left_comm]
  have h2 : checkBit2 (a ^^^ b) = (checkBit2 a ^^ checkBit2 b) := by
    simp only [checkBit2, BitVec.getElem_xor, Bool.xor_assoc, Bool.xor_left_comm]
  have h3 : checkBit3 (a ^^^ b) = (checkBit3 a ^^ checkBit3 b) := by
    simp only [checkBit3, BitVec.getElem_xor, Bool.xor_assoc, Bool.xor_left_comm]
  simp only [syndrome, h1, h2, h3, ← BitVec.ofBool_xor_ofBool, ← BitVec.xor_append]

/-- Check bit ck covers the positions whose number has bit k-1 set. -/
theorem syndrome_position : ∀ {i : Nat}, i ≤ 7 → syndrome (1#7 <<< (7 - i)) = BitVec.ofNat 3 i := by
  decide

theorem syndrome_toNat (cw : Codeword) :
    (syndrome cw).toNat = (checkBit1 cw).toNat + 2 * (checkBit2 cw).toNat + 4 * (checkBit3 cw).toNat := by
  have hsum : ∀ c1 c2 c3 : Bool, (BitVec.ofBool c3 ++ BitVec.ofBool c2 ++ BitVec.ofBool c1).toNat =
      c1.toNat + 2 * c2.toNat + 4 * c3.toNat := by decide
  exact hsum _ _ _

theorem syndrome_toNat_le (cw : Codeword) : (syndrome cw).toNat ≤ 7 := Nat.le_of_lt_succ (syndrome cw).isLt

theorem syndrome_eq_zero_iff (cw : Codeword) :
    syndrome cw = 0#3 ↔ checkBit1 cw = false ∧ checkBit2 cw = false ∧ checkBit3 cw = false := by
  have hzero : ∀ c1 c2 c3 : Bool, BitVec.ofBool c3 ++ BitVec.ofBool c2 ++ BitVec.ofBool c1 = 0#3 ↔
      c1 = false ∧ c2 = false ∧ c3 = false := by decide
  exact hzero _ _ _

/-! #### Words with syndrome 0 -/

theorem payload_bits_of_eq_append {pl : Payload} {d1 d2 d3 d4 : Bool}
    (h : pl = BitVec.ofBool d1 ++ BitVec.ofBool d2 ++ BitVec.ofBool d3 ++ BitVec.ofBool d4) :
    pl[3] = d1 ∧ pl[2] = d2 ∧ pl[1] = d3 ∧ pl[0] = d4 := by
  subst h
  revert d1 d2 d3 d4
  decide

@[simp] theorem extract_bits (cc : Codeword) :
    (extract cc)[3] = cc[4] ∧ (extract cc)[2] = cc[2] ∧ (extract cc)[1] = cc[1] ∧ (extract cc)[0] = cc[0] :=
  payload_bits_of_eq_append rfl

/-- A check bit that is 0 says that its parity bit is the sum of the three data bits it covers. -/
theorem summands_eq_parity_of_check {p a b c : Bool} (h : (p ^^ a ^^ b ^^ c) = false) : (a ^^ b ^^ c) = p := by
  revert p a b c
  decide

/-- A word with syndrome 0 is the codeword of its data bits: each check bit fixes one parity bit
(spec/43_syndrome_corrector.md R154). -/
theorem hammingEncode_extract {cw : Codeword} (h : syndrome cw = 0#3) : hammingEncode (extract cw) = cw := by
  obtain ⟨h1, h2, h3⟩ := (syndrome_eq_zero_iff cw).1 h
  have hp1 : (cw[4] ^^ cw[2] ^^ cw[0]) = cw[6] := summands_eq_parity_of_check h1
  have hp2 : (cw[4] ^^ cw[1] ^^ cw[0]) = cw[5] := summands_eq_parity_of_check h2
  have hp3 : (cw[2] ^^ cw[1] ^^ cw[0]) = cw[3] := summands_eq_parity_of_check h3
  refine BitVec.eq_of_getElem_eq fun k hk => ?_
  interval_cases k <;> simp only [hammingEncode_bits, extract_bits, hp1, hp2, hp3]

/-! #### Inverting one position -/

section
variable {i k : Nat}

/-- Position 0 is none: the codeword has the positions 1 to 7. -/
@[simp] theorem flipPosition_zero (cw : Codeword) : flipPosition cw 0 = cw := by
  simp [flipPosition]

@[simp] theorem flipPosition_flipPosition (cw : Codeword) (i : Nat) : flipPosition (flipPosition cw i) i = cw := by
  simp [flipPosition]

theorem syndrome_flipPosition (cw : Codeword) (hi : i ≤ 7) :
    syndrome (flipPosition cw i) = syndrome cw ^^^ BitVec.ofNat 3 i := by
  rw [flipPosition, syndrome_xor, syndrome_position hi]

/-- The bit at position i changes exactly when i is the position inverted. -/
theorem getLsbD_flipPosition (cw : Codeword) (hi : 1 ≤ i) (hi7 : i ≤ 7) (hk : k ≤ 7) :
    (flipPosition cw k).getLsbD (7 - i) = (cw.getLsbD (7 - i) ^^ decide (k = i)) := by
  have hposition : (7 - k < 7 ∧ 7 - k = 7 - i) ↔ k = i := by omega
  rw [flipPosition, BitVec.getLsbD_xor, ← BitVec.twoPow_eq, BitVec.getLsbD_twoPow, ← Bool.decide_and,
    decide_eq_decide.2 hposition]

end

/-! #### Correction (spec/43_syndrome_corrector.md R152, R154) -/

/-- Correction inverts the position the syndrome names; position 0 is none. -/
theorem correct_eq_flipPosition (cw : Codeword) (syn : Syndrome) : correct cw syn = flipPosition cw syn.toNat := by
  by_cases h : syn = 0#3 <;> simp [correct, h]

/-- What COR answers: the word corrected by its own syndrome. -/
def corrected (cw : Codeword) : Codeword := correct cw (syndrome cw)

theorem corrected_eq_flipPosition (cw : Codeword) : corrected cw = flipPosition cw (syndrome cw).toNat :=
  correct_eq_flipPosition cw _

theorem corrected_of_syndrome_eq_zero {cw : Codeword} (h : syndrome cw = 0#3) : corrected cw = cw := by
  rw [corrected_eq_flipPosition, h]
  exact flipPosition_zero cw

theorem syndrome_corrected (cw : Codeword) : syndrome (corrected cw) = 0#3 := by
  rw [corrected_eq_flipPosition, syndrome_flipPosition cw (syndrome_toNat_le cw), BitVec.ofNat_toNat,
    BitVec.setWidth_eq, BitVec.xor_self]

/-- Every word is corrected to a codeword. -/
theorem hammingEncode_extract_corrected (cw : Codeword) : hammingEncode (extract (corrected cw)) = corrected cw :=
  hammingEncode_extract (syndrome_corrected cw)

theorem syndrome_flipPosition_hammingEncode (pl : Payload) {i : Nat} (hi : i ≤ 7) :
    syndrome (flipPosition (hammingEncode pl) i) = BitVec.ofNat 3 i := by
  rw [syndrome_flipPosition _ hi, syndrome_hammingEncode, BitVec.zero_xor]

theorem corrected_flipPosition_hammingEncode (pl : Payload) {i : Nat} (hi : i ≤ 7) :
    corrected (flipPosition (hammingEncode pl) i) = hammingEncode pl := by
  have hsyn : (BitVec.ofNat 3 i).toNat = i := Nat.mod_eq_of_lt (Nat.lt_succ_of_le hi)
  rw [corrected_eq_flipPosition, syndrome_flipPosition_hammingEncode pl hi, hsyn, flipPosition_flipPosition]

/-- No inverted bit or one, at the positions 1 to 7, is one inverted position of 0 to 7. -/
theorem zero_or_one_flip_iff (cw c : Codeword) :
    (cw = c ∨ ∃ i : Nat, 1 ≤ i ∧ i ≤ 7 ∧ cw = flipPosition c i) ↔ ∃ i ≤ 7, cw = flipPosition c i := by
  constructor
  · rintro (rfl | ⟨i, -, hi, hcw⟩)
    · exact ⟨0, Nat.zero_le 7, (flipPosition_zero cw).symm⟩
    · exact ⟨i, hi, hcw⟩
  · rintro ⟨i, hi, rfl⟩
    rcases Nat.eq_zero_or_pos i with rfl | hpos
    · exact .inl (flipPosition_zero c)
    · exact .inr ⟨i, hpos, hi, rfl⟩

/-- A word is within one inverted bit of the codeword it is corrected to and of no other. -/
theorem within_one_flip_iff (cw : Codeword) (pl : Payload) :
    (∃ i ≤ 7, cw = flipPosition (hammingEncode pl) i) ↔ pl = extract (corrected cw) := by
  constructor
  · rintro ⟨i, hi, rfl⟩
    rw [corrected_flipPosition_hammingEncode pl hi, extract_hammingEncode]
  · rintro rfl
    refine ⟨(syndrome cw).toNat, syndrome_toNat_le cw, ?_⟩
    rw [hammingEncode_extract_corrected, corrected_eq_flipPosition, flipPosition_flipPosition]

/-! #### The distance of two words (spec/43_syndrome_corrector.md R155) -/

theorem distance_xor_self (cw e : Codeword) : distance (cw ^^^ e) cw = distance e 0#7 := by
  rw [distance, distance, BitVec.xor_zero, BitVec.xor_comm cw e, BitVec.xor_assoc, BitVec.xor_self, BitVec.xor_zero]

theorem distance_flipPosition_le (cw : Codeword) {i : Nat} (hi : i ≤ 7) : distance (flipPosition cw i) cw ≤ 1 := by
  have hone : ∀ i ≤ 7, distance (1#7 <<< (7 - i)) 0#7 ≤ 1 := by decide
  rw [flipPosition, distance_xor_self]
  exact hone i hi

section
variable {i j : Nat}

/-- Two positions and their XOR are three different positions. -/
theorem xor_is_third_position (hi : 1 ≤ i) (hij : i < j) (hj : j ≤ 7) :
    i ^^^ j ≤ 7 ∧ i ^^^ j ≠ 0 ∧ i ^^^ j ≠ i ∧ i ^^^ j ≠ j := by
  have hlt : i ^^^ j < 2 ^ 3 := Nat.xor_lt_two_pow (by omega) (by omega)
  have hi0 : i ≠ 0 := Nat.ne_of_gt hi
  have hj0 : j ≠ 0 := Nat.ne_of_gt (hi.trans hij.le)
  exact ⟨Nat.le_of_lt_succ hlt, mt Nat.xor_eq_zero_iff.1 hij.ne, mt xor_left_eq_self_iff.1 hj0,
    mt xor_right_eq_self_iff.1 hi0⟩

theorem distance_three_flips (cw : Codeword) (hi : 1 ≤ i) (hij : i < j) (hj : j ≤ 7) :
    distance (flipPosition (flipPosition (flipPosition cw i) j) (i ^^^ j)) cw = 3 := by
  have hthree : ∀ j ≤ 7, ∀ i < j, 1 ≤ i →
      distance (1#7 <<< (7 - i) ^^^ (1#7 <<< (7 - j) ^^^ 1#7 <<< (7 - (i ^^^ j)))) 0#7 = 3 := by decide
  simp only [flipPosition, BitVec.xor_assoc, distance_xor_self]
  exact hthree j hj i hij hi

/-- Two inverted positions add up to the syndrome `i XOR j`. -/
theorem syndrome_two_flips_toNat (pl : Payload) (hi : 1 ≤ i) (hij : i < j) (hj : j ≤ 7) :
    (syndrome (flipPosition (flipPosition (hammingEncode pl) i) j)).toNat = i ^^^ j := by
  obtain ⟨hk, -⟩ := xor_is_third_position hi hij hj
  rw [syndrome_flipPosition _ hj, syndrome_flipPosition_hammingEncode pl (by omega), ← BitVec.ofNat_xor]
  exact Nat.mod_eq_of_lt (Nat.lt_succ_of_le hk)

end

/-! #### The operations on a codeword, and on a codeword with one position inverted -/

theorem exec_cor_codeword (cw : Codeword) (s : State) :
    exec (.cor (zext15 cw)) s = .next (s.withResponse ⟨.ok, zext15 (corrected cw), syndrome cw⟩) := by
  simp [exec, execCor, corrected]

theorem decodedResponse_eq (cw : Codeword) :
    decodedResponse cw = ⟨.ok, zext15 (extract (corrected cw)), syndrome cw⟩ := rfl

/-- At most one inverted position is corrected (spec/43_syndrome_corrector.md R154). -/
theorem decodedResponse_flipPosition (pl : Payload) {i : Nat} (hi : i ≤ 7) :
    decodedResponse (flipPosition (hammingEncode pl) i) = ⟨.ok, zext15 pl, BitVec.ofNat 3 i⟩ := by
  rw [decodedResponse_eq, corrected_flipPosition_hammingEncode pl hi, extract_hammingEncode,
    syndrome_flipPosition_hammingEncode pl hi]

theorem exec_dec_flipPosition (pl : Payload) {i : Nat} (hi : i ≤ 7) (s : State) :
    exec (.dec (zext15 (flipPosition (hammingEncode pl) i))) s =
      .next (s.withResponse ⟨.ok, zext15 pl, BitVec.ofNat 3 i⟩) := by
  rw [exec_dec_codeword, decodedResponse_flipPosition pl hi]

theorem exec_cor_flipPosition (pl : Payload) {i : Nat} (hi : i ≤ 7) (s : State) :
    exec (.cor (zext15 (flipPosition (hammingEncode pl) i))) s =
      .next (s.withResponse ⟨.ok, zext15 (hammingEncode pl), BitVec.ofNat 3 i⟩) := by
  rw [exec_cor_codeword, corrected_flipPosition_hammingEncode pl hi, syndrome_flipPosition_hammingEncode pl hi]

theorem zext15_ofNat_position {i : Nat} (hi : i ≤ 7) : zext15 (BitVec.ofNat 3 i) = BitVec.ofNat 15 i := by
  rw [← BitVec.toNat_inj, zext15_toNat (by decide), BitVec.toNat_ofNat, BitVec.toNat_ofNat]
  omega

/-! #### Frames (spec/42_frame_parser.md R131) -/

/-- Codeword position i is frame bit 11 - i. -/
theorem buildFrame_flipPosition (cw : Codeword) {i : Nat} (hi : 1 ≤ i) (hi7 : i ≤ 7) :
    buildFrame cw ^^^ 1#15 <<< (11 - i) = buildFrame (flipPosition cw i) := by
  have hbit : ∀ i ≤ 7, 1 ≤ i → 1#15 <<< (11 - i) = 0#4 ++ 1#7 <<< (7 - i) ++ 0#4 := by decide
  have hfields : ∀ e : Codeword, (Config.header ++ cw ++ Config.terminator) ^^^ (0#4 ++ e ++ 0#4) =
      Config.header ++ (cw ^^^ e) ++ Config.terminator := by
    simp only [BitVec.xor_append, BitVec.xor_zero, implies_true]
  rw [hbit i hi7 hi]
  exact hfields _

theorem exec_parse_buildFrame (cw : Codeword) (s : State) :
    exec (.parse (buildFrame cw)) s = .next (s.withResponse (decodedResponse cw)) := by
  rw [exec_parse_of_markersOk (markersOk_buildFrame cw), frameCodeword_buildFrame]

theorem exec_parse_flipPosition (pl : Payload) {i : Nat} (hi : i ≤ 7) (s : State) :
    exec (.parse (buildFrame (flipPosition (hammingEncode pl) i))) s =
      .next (s.withResponse ⟨.ok, zext15 pl, BitVec.ofNat 3 i⟩) := by
  rw [exec_parse_buildFrame, decodedResponse_flipPosition pl hi]

/-- An operand with no reserved bit set is its payload (spec/30_encoding.md R68). -/
theorem zext15_payloadOf {x : Operand} (h : payloadReservedSet x = false) : zext15 (payloadOf x) = x := by
  rw [payloadReservedSet_eq, decide_eq_false_iff_not] at h
  rw [← BitVec.toNat_inj, zext15_toNat (by decide), payloadOf, BitVec.extractLsb'_toNat]
  simp only [Nat.shiftRight_zero]
  omega

/-- An accepted ENCF ran on a payload and answered the frame of its codeword. -/
theorem exists_payload_of_exec_encf_ok {x : Operand} {s s' : State} {r : Response}
    (hencf : exec (.encf x) s = .next s') (hr : s'.respPort = some r) (hok : r.status = .ok) :
    ∃ pl : Payload, x = zext15 pl ∧ r.res = buildFrame (hammingEncode pl) := by
  rw [exec_encf] at hencf
  split at hencf
  · cases hencf
    cases hr
    cases hok
  · next hx =>
    cases hencf
    cases hr
    exact ⟨payloadOf x, (zext15_payloadOf (Bool.eq_false_of_not_eq_true hx)).symm, rfl⟩

/-! #### The statements -/

/-- Settles O14: the syndrome is the number of the three check bits. -/
theorem synAnswersSyndrome : Obligations.SynAnswersSyndrome := by
  unfold Obligations.SynAnswersSyndrome
  exact ⟨fun cw s => ⟨syndrome cw, decode_pattern_or_value .syn cw, exec_syn_codeword cw s, syndrome_toNat cw⟩,
    fun x s hx => exec_of_wide (op := .syn) hx s⟩

/-- Settles O15: correction inverts the position that the syndrome names, and the result has syndrome 0. -/
theorem corAnswersCorrectedCodeword : Obligations.CorAnswersCorrectedCodeword := by
  unfold Obligations.CorAnswersCorrectedCodeword
  refine ⟨fun cw s => ⟨corrected cw, syndrome cw, decode_pattern_or_value .cor cw, exec_cor_codeword cw s,
    exec_syn_codeword cw s, fun i hi hi7 => ?_, extract (corrected cw), (hammingEncode_extract_corrected cw).symm⟩,
    fun x s hx => exec_of_wide (op := .cor) hx s⟩
  rw [corrected_eq_flipPosition, getLsbD_flipPosition cw hi hi7 (syndrome_toNat_le cw)]

/-- Settles O16: DEC answers the data bits of what COR answers. -/
theorem decAnswersPayload : Obligations.DecAnswersPayload := by
  unfold Obligations.DecAnswersPayload
  refine ⟨fun cw s => ⟨corrected cw, extract (corrected cw), syndrome cw, decode_pattern_or_value .dec cw,
    exec_dec_codeword cw s, exec_cor_codeword cw s, ?_⟩, fun x s hx => exec_of_wide (op := .dec) hx s⟩
  obtain ⟨hd1, hd2, hd3, hd4⟩ := extract_bits (corrected cw)
  exact ⟨hd1, hd2, hd3, hd4, corrected_of_syndrome_eq_zero⟩

/-- Settles O21, by the linearity of the syndrome: a position has itself as its syndrome. -/
theorem syndromeNamesFlippedPosition : Obligations.SyndromeNamesFlippedPosition := by
  unfold Obligations.SyndromeNamesFlippedPosition
  refine ⟨fun cw i s _ hi => ⟨syndrome cw, exec_syn_codeword cw s, ?_⟩, fun pl i s _ hi => ?_⟩
  · rw [← syndrome_flipPosition cw hi]
    exact exec_syn_codeword (flipPosition cw i) s
  · have hres : zext15 (BitVec.ofNat 3 i) = BitVec.ofNat 15 i := zext15_ofNat_position hi
    rw [← hres, ← syndrome_flipPosition_hammingEncode pl hi]
    exact exec_syn_codeword (flipPosition (hammingEncode pl) i) s

/-- Settles O22: COR inverts the inverted position back, and answers the one codeword near the word. -/
theorem singleErrorIsCorrected : Obligations.SingleErrorIsCorrected := by
  unfold Obligations.SingleErrorIsCorrected
  refine ⟨fun pl s => ⟨?_, fun i _ hi => ⟨?_, ?_⟩⟩,
    fun cw s => ⟨extract (corrected cw), syndrome cw, ?_, fun pl' => ?_⟩⟩
  · rw [← flipPosition_zero (hammingEncode pl)]
    exact exec_dec_flipPosition pl (Nat.zero_le 7) s
  · exact exec_dec_flipPosition pl hi s
  · exact exec_cor_flipPosition pl hi s
  · rw [hammingEncode_extract_corrected]
    exact exec_cor_codeword cw s
  · exact (zero_or_one_flip_iff cw (hammingEncode pl')).trans (within_one_flip_iff cw pl')

/-- Settles O23: COR answers the one codeword within one inverted bit, which is not the one sent; after two inverted
bits it inverts a third. -/
theorem multipleErrorsAreSilentlyWrong : Obligations.MultipleErrorsAreSilentlyWrong := by
  unfold Obligations.MultipleErrorsAreSilentlyWrong
  refine ⟨fun pl cw s hdist => ⟨extract (corrected cw), syndrome cw, fun hpl => ?_, exec_dec_codeword cw s⟩,
    fun pl i j s hi hij hj => ?_⟩
  · obtain ⟨i, hi, rfl⟩ := (within_one_flip_iff cw pl).2 hpl.symm
    exact absurd (distance_flipPosition_le (hammingEncode pl) hi) (Nat.not_le.2 hdist)
  · obtain ⟨-, hk0, hki, hkj⟩ := xor_is_third_position hi hij hj
    have hsyn := syndrome_two_flips_toNat pl hi hij hj
    refine ⟨extract (corrected (flipPosition (flipPosition (hammingEncode pl) i) j)), syndrome _, hsyn, hsyn ▸ hk0,
      hsyn ▸ hki, hsyn ▸ hkj, ?_, ?_⟩
    · rw [hammingEncode_extract_corrected, corrected_eq_flipPosition, hsyn]
      exact distance_three_flips (hammingEncode pl) hi hij hj
    · rw [hammingEncode_extract_corrected]
      exact exec_cor_codeword _ s

/-- Settles O24: an accepted ENCF answers the frame of a codeword, and a codeword position inverted inside the frame is
corrected there. -/
theorem parseInvertsEncf : Obligations.ParseInvertsEncf := by
  unfold Obligations.ParseInvertsEncf
  intro x s s' u r hencf hr hok
  obtain ⟨pl, rfl, hres⟩ := exists_payload_of_exec_encf_ok hencf hr hok
  rw [hres]
  refine ⟨?_, fun i hi hi7 => ?_⟩
  · rw [← flipPosition_zero (hammingEncode pl)]
    exact exec_parse_flipPosition pl (Nat.zero_le 7) u
  · rw [buildFrame_flipPosition _ hi hi7]
    exact exec_parse_flipPosition pl hi7 u

end Sys2Proof.Machine
end

section
/-! ### The wire: what each surface run prints, alone on the core and among other hosts and resets -/

namespace Sys2Proof.Machine

/-! #### The responses to the commands of the surfaces -/

/-- The response to the word of an operation is the one the operation places. -/
theorem responseTo_of_exec {w : Word} {i : Instr} {r : Response} (hd : decode w = .ok i)
    (hexec : ∀ s, exec i s = .next (s.withResponse r)) : responseTo w = some r := by
  simp [responseTo, serve_of_decode hd, hexec]

/-- A sender's command is answered with the frame of its payload (spec/44_wire_interface.md R182). -/
theorem responseTo_senderCommand (pl : Payload) :
    responseTo (senderCommand pl) = some ⟨.ok, buildFrame (hammingEncode pl), 0#3⟩ := by
  refine responseTo_of_exec ?_ (exec_encf_payload pl)
  have hword : _ = senderCommand pl := pattern_or_value .encf pl
  rw [← hword]
  exact decode_pattern_or_value .encf pl

/-- A receiver's command is answered as its frame's codeword is decoded (spec/44_wire_interface.md R188). -/
theorem responseTo_receiverCommand (cw : Codeword) :
    responseTo (receiverCommand (buildFrame cw)) = some (decodedResponse cw) :=
  responseTo_of_exec (decode_encode (.parse (buildFrame cw))) (exec_parse_buildFrame cw)

/-- A candidate that passes the receiver's checks is the frame of some codeword. -/
theorem exists_buildFrame_of_receiverFrame {t : Text} {fr : Frame} (hfr : receiverFrame t = some fr) :
    ∃ cw, fr = buildFrame cw := by
  obtain ⟨mid, rfl, hlength, hwire⟩ := receiverFrame_shape hfr
  obtain ⟨cw, -, hcw⟩ := receiverFrame_of_wire mid hlength hwire
  exact ⟨cw, Option.some.inj (hfr.symm.trans hcw)⟩

/-! #### A faithful surface that gets the response of its command finishes a correct run -/

theorem senderReport_of_payload {args : List Text} {pl : Payload} (hpl : senderPayload args = some pl)
    (message : Text) :
    senderReport message args = (.ok, chars (buildFrame (hammingEncode pl)) ++ [lineFeed]) := by
  simp [senderReport, hpl]

theorem receiverReport_of_codeword {t : Text} {cw : Codeword} (hcw : receiverFrame t = some (buildFrame cw)) :
    receiverReport t = (.ok, chars (extract (corrected cw)) ++ [lineFeed]) := by
  simp [receiverReport, hcw, corrected]

theorem payloadOf_decodedResponse (cw : Codeword) :
    payloadOf (decodedResponse cw).res = extract (corrected cw) := payloadOf_zext15 _

section
variable {h : HostState}

theorem HostState.SurfacesCorrect.receive (hc : h.SurfacesCorrect) (r : Response) :
    (h.receive r).SurfacesCorrect := by
  refine ⟨fun p hp => ?_, hc.correct⟩
  obtain ⟨q, hq, rfl⟩ := Option.map_eq_some_iff.1 hp
  exact hc.faithful q hq

theorem HostState.SurfacesCorrect.await (hc : h.SurfacesCorrect) {p : Pending} (hp : p.Faithful) :
    (h.await p).SurfacesCorrect := by
  refine ⟨fun q hq => ?_, hc.correct⟩
  cases hq
  exact hp

theorem HostState.SurfacesCorrect.record (hc : h.SurfacesCorrect) {run : SurfaceRun} (hrun : run.Correct) :
    (h.record run).SurfacesCorrect :=
  ⟨hc.faithful, List.forall_mem_cons.2 ⟨hrun, hc.correct⟩⟩

theorem HostState.SurfacesCorrect.release (hc : h.SurfacesCorrect) : h.release.SurfacesCorrect :=
  ⟨nofun, hc.correct⟩

/-- What a waiting surface records for the response of its own command is correct. -/
theorem HostState.SurfacesCorrect.finish (hc : h.SurfacesCorrect) {p : Pending} {r : Response}
    (hp : p.Faithful) (hr : responseTo p.cmd = some r) : (finish p.who r h).SurfacesCorrect := by
  obtain ⟨cmd, who, response⟩ := p
  cases who with
  | host bindTo => cases bindTo <;> exact ⟨nofun, hc.correct⟩
  | sender args stdin =>
    obtain ⟨pl, hpl, rfl⟩ := hp
    cases (responseTo_senderCommand pl).symm.trans hr
    exact hc.release.record ⟨rfl, (senderReport_of_payload hpl _).symm⟩
  | receiver candidate unread =>
    obtain ⟨fr, hfr, rfl⟩ := hp
    obtain ⟨cw, rfl⟩ := exists_buildFrame_of_receiverFrame hfr
    cases (responseTo_receiverCommand cw).symm.trans hr
    refine hc.release.record ⟨rfl, candidate, rfl, ?_⟩
    rw [receiverReport_of_codeword hfr, payloadOf_decodedResponse]

end

theorem hostAct_surfacesCorrect {free : Nat → Nat} {a : HostAction} {h h' : HostState} (hc : h.SurfacesCorrect)
    (ha : hostAct free a h = .ok h') : h'.SurfacesCorrect := by
  rcases hostAct_cases ha with rfl | ⟨n, rfl⟩ | ⟨p, rfl, -, hp⟩ | ⟨run, rfl, hrun⟩
  · exact hc
  · exact ⟨hc.faithful, hc.correct⟩
  · exact hc.await hp
  · exact hc.record hrun

/-- A host whose response is that of its own command makes no move that records a wrong run. -/
theorem hostMove_surfacesCorrect {n : Nat} {h h' : HostState} (hm : hostMove n h = .ok h')
    (hown : h.HoldsOwnResponse) (hc : h.SurfacesCorrect) : h'.SurfacesCorrect := by
  rcases hostMove_cases hm with rfl | ⟨p, r, hp, hr, rfl⟩ | ⟨-, a, rest, -, ha⟩
  · exact hc
  · have hresp : responseTo p.cmd = some r := by
      rcases hown p hp with hnone | hsome
      · simp [hr] at hnone
      · exact hsome.symm.trans hr
    exact hc.finish (hc.faithful p hp) hresp
  · exact hostAct_surfacesCorrect (h := (h.dropActions 1).countFree) ⟨hc.faithful, hc.correct⟩ ha

/-- The response of the word on the port is the own response of the host that the word belongs to. -/
theorem State.PortOwned.holdsOwnResponse_receive {s : State} (ho : s.PortOwned) {m : Nat} {w : Word} {h : HostState}
    {r : Response} (hm : s.portHost = some m) (hw : s.cmdPort = some w) (hh : s.hosts[m]? = some h)
    (hr : responseTo w = some r) : (h.receive r).HoldsOwnResponse := by
  obtain ⟨k, hk, hu⟩ := ho m w hm hw
  cases hh.symm.trans hk
  exact HostState.holdsOwnResponse_receive hu hr

/-- Settles O31: pairing is kept by O30, and a host that holds the response of its own command, as pairing says,
finishes only correct runs. -/
theorem stepKeepsSurfacesCorrect : Obligations.StepKeepsSurfacesCorrect := by
  unfold Obligations.StepKeepsSurfacesCorrect
  rintro s t ⟨hpaired, hhosts⟩ hstep
  obtain ⟨howned, hown⟩ := s.paired_iff.1 hpaired
  have hboth : ∀ h ∈ t.hosts, h.HoldsOwnResponse ∧ h.SurfacesCorrect :=
    (step_cases hstep).all_hosts (fun h hh => ⟨hown h hh, hhosts h hh⟩)
      (fun _ _ _ r hm hw hh hr hP => ⟨howned.holdsOwnResponse_receive hm hw hh hr, hP.2.receive r⟩)
      (fun _ _ _ hm hP => ⟨hostMove_holdsOwnResponse hm hP.1, hostMove_surfacesCorrect hm hP.1 hP.2⟩)
  exact ⟨stepKeepsTransactionsPaired s t hpaired hstep, fun h hh => (hboth h hh).2⟩

/-! #### The checks on arguments and candidates -/

theorem isBitChar_iff (c : Char) : isBitChar c = true ↔ c = '0' ∨ c = '1' := by
  simp [isBitChar]

/-- The sender's check passes exactly one argument of four wire characters (spec/44_wire_interface.md R181). -/
theorem senderPayload_eq_some_iff (args : List Text) (pl : Payload) :
    senderPayload args = some pl ↔
      ∃ arg, args = [arg] ∧ arg.length = 4 ∧ (∀ c ∈ arg, c = '0' ∨ c = '1') ∧ bits 4 arg = pl := by
  unfold senderPayload
  split
  · next arg => simp [isBitChar_iff, and_assoc]
  · next hargs =>
    refine ⟨nofun, ?_⟩
    rintro ⟨arg, rfl, -⟩
    exact absurd rfl (hargs arg)

theorem senderPayload_eq_none {args : List Text}
    (hargs : ¬∃ arg : Text, args = [arg] ∧ arg.length = 4 ∧ ∀ c ∈ arg, c = '0' ∨ c = '1') :
    senderPayload args = none := by
  refine Option.eq_none_iff_forall_ne_some.2 fun pl hpl => hargs ?_
  obtain ⟨arg, heq, hlength, hwire, -⟩ := (senderPayload_eq_some_iff args pl).1 hpl
  exact ⟨arg, heq, hlength, hwire⟩

theorem receiverFrame_eq_none {t : Text}
    (ht : ¬∃ mid : Text, t = headerChars ++ mid ++ terminatorChars ∧ mid.length = 7 ∧ ∀ c ∈ mid, c = '0' ∨ c = '1') :
    receiverFrame t = none :=
  Option.eq_none_iff_forall_ne_some.2 fun _ hfr => ht (receiverFrame_shape hfr)

/-- A candidate that passes the checks is read as the frame of its 15 bits. -/
theorem eq_bits_of_receiverFrame {t : Text} {fr : Frame} (hfr : receiverFrame t = some fr) : fr = bits 15 t := by
  simp only [receiverFrame, Option.ite_none_right_eq_some, Option.some.injEq] at hfr
  exact hfr.2.symm

theorem lineFeed_not_mem_of_wire {t : Text} (ht : ∀ c ∈ t, c = '0' ∨ c = '1') : lineFeed ∉ t := by
  intro hmem
  rcases ht _ hmem with h | h <;> exact absurd h (by decide)

/-- A text without a LF, alone or with a LF and more after it, is the candidate, and what follows the LF is unread
(spec/44_wire_interface.md R185). -/
theorem candidate_and_unread {t more stdin : Text} (ht : lineFeed ∉ t)
    (hstdin : stdin = t ++ lineFeed :: more ∨ stdin = t ∧ more = []) :
    candidateOf stdin = t ∧ unreadOf stdin = more := by
  have hall : ∀ c ∈ t, (c != lineFeed) = true := fun c hc => bne_iff_ne.2 fun heq => ht (heq ▸ hc)
  unfold candidateOf unreadOf
  rcases hstdin with rfl | ⟨rfl, rfl⟩
  · rw [List.takeWhile_append_of_pos hall, List.dropWhile_append_of_pos hall]
    simp
  · rw [List.takeWhile_eq_self_iff.2 hall, List.dropWhile_eq_nil_iff.2 hall]
    exact ⟨rfl, rfl⟩

/-- A frame written out is a candidate of that frame. -/
theorem receiverFrame_chars_buildFrame (cw : Codeword) :
    receiverFrame (chars (buildFrame cw)) = some (buildFrame cw) := by
  revert cw
  decide

/-! #### One surface run -/

/-- A host that waited for nothing before its action is, once it has used the response, past that action and no more. -/
theorem release_afterAction {h : HostState} (hw : h.waiting = none) (rest : List HostAction) (count : Nat) :
    { h with script := rest, freeCount := count }.release = { h with script := rest, freeCount := count } := by
  rw [HostState.release, ← hw]

theorem hosts_set_self {hosts : List HostState} {n : Nat} {h : HostState} (hh : hosts[n]? = some h) (h' : HostState) :
    (hosts.set n h')[n]? = some h' :=
  List.getElem?_set_self (List.getElem?_eq_some_iff.1 hh).1

section
variable {s : State} {n : Nat} {h : HostState} {rest : List HostAction} {later : List Turn}

/-- A sender run with a valid payload, alone on the core for four turns, records the frame of its payload. -/
theorem run_sender {args : List Text} {stdin : Text} {pl : Payload} (hone : s.OneTransaction n later)
    (hn : s.NextAction n h (.send args stdin) rest) (hpl : senderPayload args = some pl) :
    Host.Core.run core 4 s = .next { s with
      portHost := none, respPort := some ⟨.ok, buildFrame (hammingEncode pl), 0#3⟩, schedule := later,
      hosts := s.hosts.set n { h with
        script := rest, freeCount := h.freeCount + 1,
        runs := ⟨.sender, args, stdin, .ok, chars (buildFrame (hammingEncode pl)) ++ [lineFeed], 0⟩ :: h.runs } } := by
  obtain ⟨r, hr, hrun⟩ := run_action_transaction hone hn
    (p := ⟨senderCommand pl, .sender args stdin, none⟩) (by simp [hostAct, senderStart, hpl]) rfl
  cases (responseTo_senderCommand pl).symm.trans hr
  obtain ⟨-, hidle, -⟩ := hn
  rw [hrun, finish, senderFinish, release_afterAction hidle]
  rfl

/-- A receiver run whose candidate is a frame, alone on the core for four turns, records the payload its codeword is
decoded to. -/
theorem run_receiver {stdin : Text} {cw : Codeword} (hone : s.OneTransaction n later)
    (hn : s.NextAction n h (.receive stdin) rest) (hcw : receiverFrame (candidateOf stdin) = some (buildFrame cw)) :
    Host.Core.run core 4 s = .next { s with
      portHost := none, respPort := some (decodedResponse cw), schedule := later,
      hosts := s.hosts.set n { h with
        script := rest, freeCount := h.freeCount + 1,
        runs := ⟨.receiver, [candidateOf stdin], unreadOf stdin, .ok,
          chars (extract (corrected cw)) ++ [lineFeed], 0⟩ :: h.runs } } := by
  obtain ⟨r, hr, hrun⟩ := run_action_transaction hone hn
    (p := ⟨receiverCommand (buildFrame cw), .receiver (candidateOf stdin) (unreadOf stdin), none⟩)
    (by simp [hostAct, receiverStart, hcw]) rfl
  cases (responseTo_receiverCommand cw).symm.trans hr
  obtain ⟨-, hidle, -⟩ := hn
  rw [hrun, finish, receiverFinish, release_afterAction hidle, payloadOf_decodedResponse]
  rfl

/-- A frame and a LF as standard input: the run prints the payload that the frame's codeword is decoded to. -/
theorem run_receiver_on_frame {cw : Codeword} (hone : s.OneTransaction n later)
    (hn : s.NextAction n h (.receive (chars (buildFrame cw) ++ [lineFeed])) rest) :
    ∃ (t : State) (h' : HostState) (run : SurfaceRun), Host.Core.run core 4 s = .next t ∧
      t.hosts[n]? = some h' ∧ h'.runs = run :: h.runs ∧ run.status = .ok ∧ run.exitStatus = 0 ∧
      run.stdout = chars (extract (corrected cw)) ++ [lineFeed] := by
  have hline : lineFeed ∉ chars (buildFrame cw) := lineFeed_not_mem_of_wire (chars_wire _)
  obtain ⟨hcandidate, -⟩ := candidate_and_unread (more := []) hline (.inl rfl)
  have hcw := receiverFrame_chars_buildFrame cw
  rw [← hcandidate] at hcw
  have ⟨hh, _, _⟩ := hn
  exact ⟨_, _, _, run_receiver hone hn hcw, hosts_set_self hh _, rfl, rfl, rfl, rfl⟩

end

/-! #### The payload that a codeword field is decoded to -/

theorem extract_corrected_hammingEncode (pl : Payload) : extract (corrected (hammingEncode pl)) = pl := by
  rw [corrected_of_syndrome_eq_zero (syndrome_hammingEncode pl), extract_hammingEncode]

/-- A word with two or more inverted bits is decoded to another payload (spec/43_syndrome_corrector.md R155). -/
theorem extract_corrected_ne_of_distance {cw : Codeword} {pl : Payload}
    (hdist : 2 ≤ distance cw (hammingEncode pl)) : extract (corrected cw) ≠ pl := by
  intro hpl
  obtain ⟨i, hi, rfl⟩ := (within_one_flip_iff cw pl).2 hpl.symm
  exact absurd (distance_flipPosition_le (hammingEncode pl) hi) (Nat.not_le.2 hdist)

/-! #### The statements -/

/-- Settles O42: the run's command is answered with the frame of its payload. -/
theorem senderPrintsItsFrame : Obligations.SenderPrintsItsFrame := by
  unfold Obligations.SenderPrintsItsFrame
  intro s n h arg stdin rest later hone hn hlength hwire
  have hpl : senderPayload [arg] = some (bits 4 arg) :=
    (senderPayload_eq_some_iff _ _).2 ⟨arg, rfl, hlength, hwire, rfl⟩
  exact ⟨_, exec_encf_payload _ s, run_sender hone hn hpl⟩

/-- Settles O43: the argument check fails, so the host's action records the rejected run. -/
theorem senderRejectsInvalidPayload : Obligations.SenderRejectsInvalidPayload := by
  unfold Obligations.SenderRejectsInvalidPayload
  intro s n h args stdin rest hturn hn hargs
  have ⟨_, _, hs⟩ := hn
  rw [step_of_nextAction hturn hn rfl, afterAction_eq hs, senderStart, senderPayload_eq_none hargs]
  rfl

/-- Settles O44: the line is the frame of its middle characters' codeword. -/
theorem receiverPrintsThePayload : Obligations.ReceiverPrintsThePayload := by
  unfold Obligations.ReceiverPrintsThePayload
  rintro s n h line mid more stdin rest later hone hn rfl hlength hwire hstdin
  obtain ⟨cw, hmid, hcw⟩ := receiverFrame_of_wire mid hlength hwire
  have hline : lineFeed ∉ headerChars ++ mid ++ terminatorChars := by
    simpa [headerChars, terminatorChars, lineFeed] using lineFeed_not_mem_of_wire hwire
  obtain ⟨hcandidate, hunread⟩ := candidate_and_unread hline hstdin
  have hrun := run_receiver hone hn (hcandidate.symm ▸ hcw)
  rw [hcandidate, hunread] at hrun
  refine ⟨extract (corrected cw), syndrome cw, ?_, hrun⟩
  have hparse := exec_parse_buildFrame cw s
  rwa [eq_bits_of_receiverFrame hcw] at hparse

/-- Settles O45: the checks fail, so the host's action records the rejected run. -/
theorem receiverRejectsInvalidFrame : Obligations.ReceiverRejectsInvalidFrame := by
  unfold Obligations.ReceiverRejectsInvalidFrame
  intro s n h t more stdin rest hturn hn ht hstdin hshape
  obtain ⟨hcandidate, hunread⟩ := candidate_and_unread ht hstdin
  refine ⟨⟨.receiver, [t], more, .invalidFrame, invalidFrameText ++ [lineFeed], 0⟩, ?_, rfl, rfl, rfl, rfl, rfl, rfl⟩
  have ⟨_, _, hs⟩ := hn
  rw [step_of_nextAction hturn hn rfl, afterAction_eq hs, receiverStart, hcandidate, hunread,
    receiverFrame_eq_none hshape]
  rfl

/-- Settles O46: the argument spells a payload, and its codeword is decoded to that payload. -/
theorem pipedSenderAndReceiverRoundTrip : Obligations.PipedSenderAndReceiverRoundTrip := by
  unfold Obligations.PipedSenderAndReceiverRoundTrip
  intro s n h arg stdin rest later hone hn hlength hwire
  obtain ⟨pl, rfl⟩ := exists_chars_eq arg hlength hwire
  have hpl : senderPayload [chars pl] = some pl :=
    (senderPayload_eq_some_iff _ _).2 ⟨_, rfl, hlength, hwire, bits_chars_payload pl⟩
  have ⟨hh, _, _⟩ := hn
  refine ⟨_, _, _, run_sender hone hn hpl, hosts_set_self hh _, rfl, ?_⟩
  intro u m k rest' later' hone' hn'
  obtain ⟨u', k', run', hrun, hk, hruns, hstatus, -, hout⟩ := run_receiver_on_frame hone' hn'
  rw [extract_corrected_hammingEncode] at hout
  exact ⟨u', k', run', hrun, hk, hruns, hstatus, hout⟩

/-- Settles O47: an inverted codeword position is corrected, so both runs print the payload. -/
theorem correctedErrorIsInvisibleAtTheWire : Obligations.CorrectedErrorIsInvisibleAtTheWire := by
  unfold Obligations.CorrectedErrorIsInvisibleAtTheWire
  intro s u n m h k pl i rest rest' later later' hi hi7 hone hone' hn hn'
  rw [buildFrame_flipPosition _ hi hi7] at hn'
  obtain ⟨s', h', a, hs, hh, ha, hastatus, -, haout⟩ := run_receiver_on_frame hone hn
  obtain ⟨u', k', b, hu, hk, hb, hbstatus, -, hbout⟩ := run_receiver_on_frame hone' hn'
  rw [extract_corrected_hammingEncode] at haout
  rw [corrected_flipPosition_hammingEncode pl hi7, extract_hammingEncode] at hbout
  exact ⟨s', u', h', k', a, b, hs, hh, ha, hu, hk, hb, haout.trans hbout.symm, haout, hastatus, hbstatus⟩

/-- Settles O52: the receiver prints what the codeword field is decoded to, which is another payload. -/
theorem silentlyWrongPayloadAtTheWire : Obligations.SilentlyWrongPayloadAtTheWire := by
  unfold Obligations.SilentlyWrongPayloadAtTheWire
  intro s n h pl cw rest later hdist hone hn
  obtain ⟨t, h', run, hrun, hh, hruns, hstatus, hexit, hout⟩ := run_receiver_on_frame hone hn
  exact ⟨t, h', run, _, hrun, hh, hruns, hout, extract_corrected_ne_of_distance hdist, hstatus, hexit⟩

end Sys2Proof.Machine
end

section
/-! ### Exceptions: the status of every command, and whose response it is when hosts share the core -/

namespace Sys2Proof.Machine

/-! #### The status of a command (spec/60_exceptions.md R200, R205) -/

/-- The number of a status's code names the status. -/
@[simp] theorem Status.ofNumber_code (st : Status) : Status.ofNumber st.code.toNat = st := by cases st <;> rfl

theorem Status.code_injective : Function.Injective Status.code :=
  Function.LeftInverse.injective (g := Status.ofNumber ∘ BitVec.toNat) Status.ofNumber_code

/-- Settles O26: a status is read back from its code, so no two share one. -/
theorem statusCodesAreTheTable : Obligations.StatusCodesAreTheTable := by
  unfold Obligations.StatusCodesAreTheTable
  exact ⟨rfl, rfl, rfl, rfl, fun _ _ hcode => Status.code_injective hcode⟩

/-- The status an operation answers on an operand: the reserved bits come first, then PARSE's marker check
(spec/60_exceptions.md R205). -/
def opStatus (op : Op) (x : Operand) : Status :=
  if op.reservedSet x then .illegalCmd
  else if op = .parse ∧ ¬(frameHeader x = Config.header ∧ frameTerminator x = Config.terminator) then .invalidFrame
  else .ok

/-- Only PARSE tests anything beyond its reserved bits. -/
theorem exec_ok_of_not_reservedSet {op : Op} {x : Operand} (hop : op ≠ .parse) (hx : op.reservedSet x = false)
    (s : State) : ∃ res syn, exec (op.instr x) s = .next (s.withResponse ⟨.ok, res, syn⟩) := by
  cases op
  case parse => exact absurd rfl hop
  all_goals exact ⟨_, _, if_neg (Bool.eq_false_iff.1 hx)⟩

theorem exec_status (op : Op) (x : Operand) (s : State) :
    ∃ r : Response, exec (op.instr x) s = .next (s.withResponse r) ∧ r.status = opStatus op x := by
  cases hx : op.reservedSet x with
  | true =>
    exact ⟨_, exec_of_wide (by simpa [Op.reservedSet_eq] using hx) s, by simp [opStatus, hx]⟩
  | false =>
    by_cases hop : op = .parse
    · subst hop
      cases hm : markersOk x with
      | true =>
        exact ⟨_, exec_parse_of_markersOk hm s, by simp [opStatus, hx, (markersOk_iff x).1 hm, decodedResponse]⟩
      | false =>
        have hbad := mt (markersOk_iff x).2 (Bool.eq_false_iff.1 hm)
        exact ⟨_, exec_parse_of_not_markersOk hm s, by rw [opStatus, hx, if_neg nofun, if_pos ⟨rfl, hbad⟩]⟩
    · obtain ⟨res, syn, hexec⟩ := exec_ok_of_not_reservedSet hop hx s
      exact ⟨_, hexec, by simp [opStatus, hx, hop]⟩

/-- The decoder's test of the reserved bits and the operation's own agree, so an operation's word is answered as the
operation is, legal or not. -/
theorem serve_code_append (op : Op) (x : Operand) (s : State) : serve (op.code ++ x) s = exec (op.instr x) s := by
  rw [← encode_instr]
  have hd := decode_encode (op.instr x)
  rw [wellFormed_instr] at hd
  by_cases hx : x.toNat < 2 ^ op.valueWidth
  · rw [decide_eq_true hx, if_pos rfl] at hd
    exact serve_of_decode hd s
  · rw [decide_eq_false hx, if_neg nofun] at hd
    rw [serve_of_illegal hd, exec_of_wide (Nat.not_lt.1 hx)]

/-- An operation code is that of an operation, or the reserved one (spec/30_encoding.md R63, R64). -/
theorem code_cases (c : BitVec 3) : c = 7#3 ∨ ∃ op : Op, c = op.code := by
  cases hc : Op.ofCode c with
  | none => exact .inl ((Op.ofCode_eq_none c).1 hc)
  | some op => exact .inr ⟨op, Op.code_of_ofCode hc⟩

/-- Settles O10: code 7 is answered before any operation, and each other code is its operation's, whose status
`exec_status` gives. -/
theorem statusFollowsPriority : Obligations.StatusFollowsPriority := by
  unfold Obligations.StatusFollowsPriority
  intro c x s
  rcases code_cases c with rfl | ⟨op, rfl⟩
  · exact ⟨_, serve_of_illegal (decode_reservedOp x) s, (if_pos rfl).symm⟩
  · obtain ⟨r, hexec, hstatus⟩ := exec_status op x s
    refine ⟨r, (serve_code_append op x s).trans hexec, hstatus.trans ?_⟩
    cases op <;> simp [opStatus, Op.code, Op.reservedSet, payloadReservedSet, codewordReservedSet, frameHeader,
      frameTerminator]

/-! #### The response of one command goes to one host (spec/60_exceptions.md R211) -/

/-- A host that waits on `p` and is answered waits on `p` with its response. -/
theorem HostState.receive_of_waiting {h : HostState} {p : Pending} (hp : h.waiting = some p) (r : Response) :
    h.receive r = { h with waiting := some { p with response := some r } } := by
  simp [HostState.receive, hp]

/-- Giving a response to a host that is there sets that host. -/
theorem State.give_hosts_of_getElem? {s : State} {n : Nat} {h : HostState} (hh : s.hosts[n]? = some h)
    (r : Response) : (s.give n r).hosts = s.hosts.set n (h.receive r) := by
  simp [List.modify_eq_set_getElem?, hh]

/-- Settles O48: the core delivers the response to the host on record for the port, and pairing says that this host
waits on the very word served. -/
theorem responseGoesToItsHostAlone : Obligations.ResponseGoesToItsHostAlone := by
  unfold Obligations.ResponseGoesToItsHostAlone
  intro s w hpaired hturn hw
  obtain ⟨r, hr, hserve⟩ := serve_deliver w
  refine ⟨_, r, (step_core hturn hw).trans (hserve _ _), hr, by simp, fun hnone => by simp [hnone], fun n hn => ?_⟩
  obtain ⟨h, p, hh, hp, hcmd, hunanswered⟩ := hpaired.port n w hn hw
  refine ⟨h, p, hh, hp, hcmd, hunanswered, ?_⟩
  rw [hn, State.deliver_some, ← HostState.receive_of_waiting hp]
  exact State.give_hosts_of_getElem? (s := s.tick.takeCommand.withResponse r) hh r

/-! #### Two hosts in the middle of their transactions at once -/

section
variable {s : State} {n : Nat} {h : HostState}

/-- While another command stands on the port, a host's turn to present its own passes. -/
theorem step_host_waits {w : Word} (ht : s.turn = .host n) (hh : s.hosts[n]? = some h)
    (hu : h.unanswered = some w) (hport : s.cmdPort.isSome) : step s = .next s.tick := by
  obtain ⟨w', hw'⟩ := Option.isSome_iff_exists.1 hport
  simp [step, ht, turnStep, hostStep, hh, hu, hw']

/-- The core answers the command of host number n, and gives that host the response. -/
theorem step_core_gives {w : Word} {r : Response} (ht : s.turn = .core) (hw : s.cmdPort = some w)
    (hn : s.portHost = some n) (hr : responseTo w = some r) :
    step s = .next ((s.tick.takeCommand.withResponse r).give n r) := by
  obtain ⟨r', hr', hserve⟩ := serve_deliver w
  cases hr.symm.trans hr'
  rw [step_core ht hw, hserve, hn, State.deliver_some]

/-- A host that was just answered uses the response. -/
theorem step_host_finishes {p : Pending} {r : Response} (ht : s.turn = .host n)
    (hh : s.hosts[n]? = some (h.receive r)) (hp : h.waiting = some p) :
    step s = .next (s.tick.setHost n (finish p.who r h)) := by
  have hwaiting : (h.receive r).waiting = some { p with response := some r } := by simp [hp]
  refine step_host_moves ht hh (HostState.unanswered_eq_none.2 (by simp [hp])) ?_
  rw [hostMove_of_response hwaiting rfl]
  exact congrArg Except.ok (finish_with_waiting ..)

end

/-- Settles O50, turn by turn: the port is free for the second host once the core has answered the first, and each
answer is given to the host that presented. -/
theorem concurrentHostsGetTheirOwnResponses : Obligations.ConcurrentHostsGetTheirOwnResponses := by
  unfold Obligations.ConcurrentHostsGetTheirOwnResponses
  intro s m n h k p q later hmn hport hm hn hp hpnone hq hqnone hsched
  have hnm : n ≠ m := hmn.symm
  have hup : h.unanswered = some p.cmd := HostState.unanswered_eq_some.2 ⟨p, hp, hpnone, rfl⟩
  have huq : k.unanswered = some q.cmd := HostState.unanswered_eq_some.2 ⟨q, hq, hqnone, rfl⟩
  obtain ⟨r, hr, -⟩ := serve_eq p.cmd
  obtain ⟨r', hr', -⟩ := serve_eq q.cmd
  let presented := s.tick.present m p.cmd
  let answered := (presented.tick.tick.takeCommand.withResponse r).give m r
  let presented' := answered.tick.present n q.cmd
  let answered' := (presented'.tick.takeCommand.withResponse r').give n r'
  let finished := answered'.tick.setHost m (finish p.who r h)
  have hpresent : step s = .next presented := step_host_presents (turn_of_schedule hsched) hm hup hport
  have hwait : step presented = .next presented.tick :=
    step_host_waits (turn_of_schedule (congrArg List.tail^[1] hsched)) hn huq rfl
  have hanswer : step presented.tick = .next answered :=
    step_core_gives (turn_of_schedule (congrArg List.tail^[2] hsched)) rfl rfl hr
  have hpresent' : step answered = .next presented' :=
    step_host_presents (turn_of_schedule (congrArg List.tail^[3] hsched)) (by simp [answered, presented, hmn, hn])
      huq rfl
  have hanswer' : step presented' = .next answered' :=
    step_core_gives (turn_of_schedule (congrArg List.tail^[4] hsched)) rfl rfl hr'
  have hreceived : answered'.hosts[m]? = some (h.receive r) := by
    simp [answered', presented', answered, presented, hnm, hm]
  have hfinish : step answered' = .next finished :=
    step_host_finishes (turn_of_schedule (congrArg List.tail^[5] hsched)) hreceived hp
  have hreceived' : finished.hosts[n]? = some (k.receive r') := by
    simp [finished, answered', presented', answered, presented, hmn, hn]
  have hfinish' : step finished = .next (finished.tick.setHost n (finish q.who r' k)) :=
    step_host_finishes (turn_of_schedule (congrArg List.tail^[6] hsched)) hreceived' hq
  refine ⟨finished.tick.setHost n (finish q.who r' k), r, r', ?run, hr, hr', ?first, hosts_set_self hreceived' _⟩
  case run =>
    rw [run_succ 6 hpresent, run_succ 5 hwait, run_succ 4 hanswer, run_succ 3 hpresent', run_succ 2 hanswer',
      run_succ 1 hfinish, run_succ 0 hfinish']
    rfl
  case first => exact (List.getElem?_set_ne hnm).trans (hosts_set_self hreceived _)

end Sys2Proof.Machine
end

section
/-! ### Reset, and hosts that wait through resets and other hosts' turns (spec/70_reset_and_hazards.md) -/

namespace Sys2Proof.Machine

/-! #### The machine after reset -/

@[simp] theorem State.reset_cmdPort : State.reset.cmdPort = none := rfl
@[simp] theorem State.reset_respPort : State.reset.respPort = none := rfl
@[simp] theorem State.reset_hosts : State.reset.hosts = [] := rfl

theorem reset_responsesLegal : State.reset.ResponsesLegal := by simp [State.ResponsesLegal]

theorem reset_paired : State.reset.Paired :=
  State.reset.paired_iff.2 ⟨State.portOwned_of_cmdPort_eq_none State.reset_cmdPort, by simp⟩

theorem reset_assembled : State.reset.Assembled := by simp [State.Assembled]

/-- Settles O32: the invariants speak of the ports and of hosts, and after reset the ports are empty and no host is
there. -/
theorem resetMeetsInvariants : Obligations.ResetMeetsInvariants :=
  ⟨reset_responsesLegal, reset_paired, ⟨reset_paired, by simp⟩, reset_assembled⟩

/-- Settles O33: with an empty schedule and no command, the turn goes to a host that is not there. -/
theorem resetLeavesPortsEmpty : Obligations.ResetLeavesPortsEmpty := ⟨rfl, rfl, rfl, rfl, rfl⟩

/-! #### A reset arrives -/

/-- With no command being served, a reset clears the response port (spec/70_reset_and_hazards.md R230, R232). -/
theorem step_reset_idle {s : State} (ht : s.turn = .reset) (hw : s.cmdPort = none) :
    step s = .next s.tick.clearResponse := by
  simp [step, ht, turnStep, resetStep, hw]

/-- Settles O35: the state of `step_reset_idle`, written out. -/
theorem resetBetweenTransactionsClearsPort : Obligations.ResetBetweenTransactionsClearsPort :=
  fun _ ht hw => step_reset_idle ht hw

/-- A reset that arrives while a command is being served leaves no response or the full one, as a free value says
(spec/70_reset_and_hazards.md R231). -/
theorem step_reset_cuts_or_finishes {s : State} {w : Word} {r : Response} (ht : s.turn = .reset)
    (hw : s.cmdPort = some w) (hr : responseTo w = some r) :
    step s = .next s.tick.takeCommand.clearResponse.countFree ∨
    step s = .next ((s.tick.takeCommand.countFree.withResponse r).deliver s.portHost) := by
  obtain ⟨r', hr', hserve⟩ := serve_deliver w
  cases hr.symm.trans hr'
  simp only [step, ht, turnStep, resetStep, State.tick_cmdPort, State.tick_portHost, hw, hserve]
  split
  · exact .inl rfl
  · exact .inr rfl

/-- A host that presents its command and is answered on the core's next turn has the response of its word. -/
theorem run_present_answer {s : State} {n : Nat} {h : HostState} {w : Word} {r : Response} {later : List Turn}
    (hsched : s.schedule = .host n :: .core :: later) (hh : s.hosts[n]? = some h) (hu : h.unanswered = some w)
    (hport : s.cmdPort = none) (hr : responseTo w = some r) :
    Host.Core.run core 2 s = .next { s with
      portHost := none, respPort := some r, schedule := later, hosts := s.hosts.set n (h.receive r) } := by
  let presented := s.tick.present n w
  let taken := presented.tick.takeCommand.withResponse r
  have hpresent : step s = .next presented := step_host_presents (turn_of_schedule hsched) hh hu hport
  have hanswer : step presented = .next (taken.give n r) :=
    step_core_gives (turn_of_schedule (congrArg List.tail hsched)) rfl rfl hr
  rw [run_succ 1 hpresent, run_succ 0 hanswer, ← State.give_hosts_of_getElem? hh r]
  simp [Host.Core.run, taken, presented, State.give, State.withResponse, State.takeCommand, State.present, State.tick,
    hsched, hport]

/-- Settles O34: the two outcomes of the reset are `step_reset_cuts_or_finishes`, and the reissue is one presenting and
one answering turn. -/
theorem resetCutsOrFinishesTransaction : Obligations.ResetCutsOrFinishesTransaction := by
  unfold Obligations.ResetCutsOrFinishesTransaction
  constructor
  · intro s w ht hw
    obtain ⟨r, hr, -⟩ := serve_eq w
    exact ⟨r, hr, step_reset_cuts_or_finishes ht hw hr⟩
  · intro s n h w later hsched hh hu hport
    obtain ⟨r, hr, -⟩ := serve_eq w
    refine ⟨?_, r, hr, run_present_answer hsched hh hu hport hr⟩
    rw [step_host_presents (turn_of_schedule hsched) hh hu hport, State.present, State.tick, hsched, List.tail_cons]

/-! #### A waiting host is answered, whatever comes before -/

/-- Host number n is `h`, waiting on the transaction `p`, which may have been answered since. -/
def State.Awaits (s : State) (n : Nat) (h : HostState) (p : Pending) : Prop :=
  ∃ answer, s.hosts[n]? = some (h.await { p with response := answer })

/-- Host number n is `h` after it has used the response of the command of `p`. -/
def State.HasUsed (s : State) (n : Nat) (h : HostState) (p : Pending) : Prop :=
  ∃ r, responseTo p.cmd = some r ∧ s.hosts[n]? = some (finish p.who r h)

/-- Host number n, which is `h` waiting on `p`, has used the response of its command within `steps` steps. -/
def State.UsesWithin (s : State) (n : Nat) (h : HostState) (p : Pending) (steps : Nat) : Prop :=
  ∃ k t, k ≤ steps ∧ Host.Core.run core k s = .next t ∧ t.HasUsed n h p

/-- A step takes one turn off the schedule. -/
theorem StepCase.schedule {s t : State} (hc : StepCase s t) : t.schedule = s.schedule.tail := by
  cases hc with
  | served w r u hw hr hu =>
    have hu' : u.schedule = s.schedule.tail := by rcases hu with ⟨-, rfl⟩ | ⟨-, rfl⟩ <;> rfl
    rcases State.deliver_eq u s.portHost r with he | ⟨n, -, he⟩ <;> rw [he] <;> exact hu'
  | cut w hw ht => rfl
  | cleared hw ht => rfl
  | idle => rfl
  | presented n h w ht hh hu hw => rfl
  | moved n h h' ht hh hu hm => rfl

/-- What a host makes of its response does not depend on the transaction it is made to wait on. -/
@[simp] theorem finish_await (who : Client) (r : Response) (h : HostState) (p : Pending) :
    finish who r (h.await p) = finish who r h := finish_with_waiting ..

section
variable {s t : State} {n : Nat} {h : HostState} {p : Pending}

/-- The command port is free after the core's turn. -/
theorem step_core_frees_port (ht : s.turn = .core) (hstep : step s = .next t) : t.cmdPort = none := by
  cases hw : s.cmdPort with
  | none =>
    have hidle : step s = .next s.tick := by simp [step, ht, turnStep, coreStep, hw]
    cases hidle.symm.trans hstep
    exact hw
  | some w =>
    obtain ⟨r, -, hserve⟩ := serve_deliver w
    cases ((step_core ht hw).trans (hserve _ _)).symm.trans hstep
    simp

theorem State.awaits_of_waiting (hh : s.hosts[n]? = some h) (hp : h.waiting = some p) : s.Awaits n h p := by
  refine ⟨p.response, hh.trans ?_⟩
  rw [HostState.await, ← hp]

/-- A paired response that a host waits with is that of the command it waits on. -/
theorem State.Paired.responseTo_of_answer {r : Response} (hs : s.Paired)
    (hh : s.hosts[n]? = some (h.await { p with response := some r })) : responseTo p.cmd = some r :=
  ((hs.answered _ (List.mem_of_getElem? hh) _ rfl).resolve_left nofun).symm

/-- Whoever moves, a waiting host goes on waiting on its transaction, or uses the response of its command. -/
theorem State.Awaits.hasUsed_or_awaits (ha : s.Awaits n h p) (hs : s.Paired) (hstep : step s = .next t) :
    t.HasUsed n h p ∨ t.Awaits n h p := by
  obtain ⟨answer, hh⟩ := ha
  rcases (step_cases hstep).host n _ hh with hsame | ⟨w, r, -, -, -, hreceived⟩ | ⟨h', -, hu, hmove, hmoved⟩
  · exact .inr ⟨answer, hsame⟩
  · exact .inr ⟨some r, hreceived⟩
  · obtain ⟨r, rfl⟩ : ∃ r, answer = some r := HostState.unanswered_eq_none.1 hu _ rfl
    rw [hostMove_of_response rfl rfl, finish_await] at hmove
    cases hmove
    exact .inl ⟨r, hs.responseTo_of_answer hh, hmoved⟩

/-- To bound when a waiting host has used its response, it is enough to bound it from where one step leads, if the host
still waits there. -/
theorem State.Awaits.usesWithin_succ {steps : Nat} (ha : s.Awaits n h p) (hs : s.Paired) (hass : s.Assembled)
    (hlater : ∀ t, step s = .next t → t.Paired → t.Assembled → t.schedule = s.schedule.tail → t.Awaits n h p →
      t.UsesWithin n h p steps) : s.UsesWithin n h p (steps + 1) := by
  obtain ⟨t, hstep, hass'⟩ := assembledHostsNeverStop.1 s hass
  rcases ha.hasUsed_or_awaits hs hstep with hused | hwaits
  · exact ⟨1, t, by omega, run_succ 0 hstep, hused⟩
  · obtain ⟨k, u, hk, hrun, hused⟩ := hlater t hstep (stepKeepsTransactionsPaired s t hs hstep) hass'
      (step_cases hstep).schedule hwaits
    exact ⟨k + 1, u, by omega, (run_succ k hstep).trans hrun, hused⟩

/-- With the command port free, a waiting host uses a response it already has on its first turn; otherwise it presents
its command, is answered on the core's turn, and uses the response on its second. -/
theorem State.Awaits.usesWithin_three {later : List Turn} (ha : s.Awaits n h p) (hs : s.Paired)
    (hport : s.cmdPort = none) (hsched : s.schedule = .host n :: .core :: .host n :: later) :
    s.UsesWithin n h p 3 := by
  obtain ⟨answer, hh⟩ := ha
  cases answer with
  | some r =>
    have hfinish : step s = .next (s.tick.setHost n (finish p.who r (h.await p))) :=
      step_host_finishes (r := r) (turn_of_schedule hsched) hh rfl
    refine ⟨1, _, by decide, run_succ 0 hfinish, r, hs.responseTo_of_answer hh, ?_⟩
    rw [finish_await]
    exact hosts_set_self hh _
  | none =>
    obtain ⟨r, hr, hrun⟩ := run_transaction hport hsched hh rfl rfl
    refine ⟨3, _, le_rfl, hrun, r, hr, ?_⟩
    rw [finish_await]
    exact hosts_set_self hh _

/-- The turns before the two undisturbed ones of the core and the host only delay the answer; then the core's turn frees
the command port for the host. -/
theorem State.Awaits.usesWithin {before later : List Turn} (ha : s.Awaits n h p) (hs : s.Paired) (hass : s.Assembled)
    (hsched : s.schedule = before ++ .core :: .host n :: .core :: .host n :: later) :
    s.UsesWithin n h p (before.length + 4) := by
  induction before generalizing s with
  | nil =>
    exact ha.usesWithin_succ hs hass fun t hstep hs' _ hsched' hwaits => hwaits.usesWithin_three hs'
      (step_core_frees_port (turn_of_schedule hsched) hstep) (hsched'.trans (congrArg List.tail hsched))
  | cons turn before ih =>
    rw [List.length_cons, Nat.add_right_comm]
    exact ha.usesWithin_succ hs hass fun t _ hs' hass' hsched' hwaits =>
      ih hwaits hs' hass' (hsched'.trans (congrArg List.tail hsched))

end

/-- Settles O36: pairing and assembly are kept through the turns that come before, and the host waits on through them
unless it has used its response already. -/
theorem everyClientIsAnswered : Obligations.EveryClientIsAnswered := by
  unfold Obligations.EveryClientIsAnswered
  intro s n h p before later hpaired hassembled hh hp hsched
  have hwaits : s.Awaits n h p := State.awaits_of_waiting hh hp
  obtain ⟨k, t, hk, hrun, r, hr, hused⟩ :=
    hwaits.usesWithin (later := later) hpaired hassembled (by simpa using hsched)
  exact ⟨k, t, r, hk, hr, hrun, hused⟩

end Sys2Proof.Machine
end
